-- ==== Sys2Proof/Word.lean ====
section
/-! DEFINITION. The word types of the BitArray block (00_scope.md R6, R9, R13). -/

namespace Sys2Proof

/-- A storage word or a host register: 32 bits, unsigned (R6, R24). -/
abbrev Word := BitVec 32

/-- A character cell of SIN or SOUT: 8 bits (R13, R29). -/
abbrev Byte := BitVec 8

/-- A slot number as a command field holds it: 4 bits, 0 .. 15 (R65). -/
abbrev SlotNo := BitVec 4

/-- A byte offset in the host register space: 24 bits (R40). -/
abbrev Offset := BitVec 24

end Sys2Proof
end

