-- ==== Sys2Proof/Syntax.lean ====
section
/-! DEFINITION. The commands of BA-CMD revision 1, one constructor per row of spec/opcode_table.json (30_encoding.md R62,
R68). Operands stand in the assembler's order: the destination slot first, then the source slots, then the bit value. -/

namespace Sys2Proof

/-- A command. `d` is the slot it writes, `a` and `b` the slots it reads, `v` the bit value of SET (R61, R65). The scalar
operand ARG and the text operand SIN are registers of the state, not part of the command (R60). -/
inductive Instr where
  /-- CREATE sD (R81). -/
  | create (d : SlotNo)
  /-- CREATEH sD (R84). -/
  | createh (d : SlotNo)
  /-- GET sA (R92). -/
  | get (a : SlotNo)
  /-- SET sD, V (R93). -/
  | set (d : SlotNo) (v : Bool)
  /-- TOGGLE sD (R94). -/
  | toggle (d : SlotNo)
  /-- SIZE sA (R100). -/
  | size (a : SlotNo)
  /-- COUNT sA (R101). -/
  | count (a : SlotNo)
  /-- EQUALS sA, sB (R102). -/
  | equals (a b : SlotNo)
  /-- COPY sD, sA (R103). -/
  | copy (d a : SlotNo)
  /-- NOT sD (R110). -/
  | not (d : SlotNo)
  /-- AND sD, sA, sB (R112). -/
  | and (d a b : SlotNo)
  /-- OR sD, sA, sB (R113). -/
  | or (d a b : SlotNo)
  /-- XOR sD, sA, sB (R114). -/
  | xor (d a b : SlotNo)
  /-- TOBIN sA (R121). -/
  | tobin (a : SlotNo)
  /-- TOHEX sA (R122). -/
  | tohex (a : SlotNo)
  deriving DecidableEq, Repr

/-- The slot fields a command uses (the column "fields used" of R62): the slots R63(c) speaks of. -/
def Instr.slots : Instr → List SlotNo
  | .create d => [d]
  | .createh d => [d]
  | .get a => [a]
  | .set d _ => [d]
  | .toggle d => [d]
  | .size a => [a]
  | .count a => [a]
  | .equals a b => [a, b]
  | .copy d a => [d, a]
  | .not d => [d]
  | .and d a b => [d, a, b]
  | .or d a b => [d, a, b]
  | .xor d a b => [d, a, b]
  | .tobin a => [a]
  | .tohex a => [a]

/-- The slot a command writes, if it writes one (10_state.md R22(c) and 90_conflicts.md C8). -/
def Instr.target : Instr → Option SlotNo
  | .create d => some d
  | .createh d => some d
  | .get _ => none
  | .set d _ => some d
  | .toggle d => some d
  | .size _ => none
  | .count _ => none
  | .equals _ _ => none
  | .copy d _ => some d
  | .not d => some d
  | .and d _ _ => some d
  | .or d _ _ => some d
  | .xor d _ _ => some d
  | .tobin _ => none
  | .tohex _ => none

/-- The slots whose array a command reads: the ones it checks VALID of (60_exceptions.md R130, SLOT_UNALLOCATED). -/
def Instr.sources : Instr → List SlotNo
  | .create _ => []
  | .createh _ => []
  | .get a => [a]
  | .set d _ => [d]
  | .toggle d => [d]
  | .size a => [a]
  | .count a => [a]
  | .equals a b => [a, b]
  | .copy _ a => [a]
  | .not d => [d]
  | .and _ a b => [a, b]
  | .or _ a b => [a, b]
  | .xor _ a b => [a, b]
  | .tobin a => [a]
  | .tohex a => [a]

end Sys2Proof
end

