-- ==== Sys2Proof/Decode.lean ====
section
/-! DEFINITION. The decoder of command words and, after it, the encoder, both from the format of 30_encoding.md R61 and the
opcode map of R62. -/

namespace Sys2Proof

/-- Why a word spells no command (R63). -/
inductive DecodeError where
  /-- OP is 0x0, which is reserved and illegal (R63(a), R66). -/
  | reservedOpcode
  /-- A field the command of this OP does not use, V outside SET, or RSV is not zero (R63(b)). -/
  | unusedFieldNotZero (op : BitVec 4)
  deriving DecidableEq, Repr

/-- `OP = c[31:28]` (R61). -/
def opField (c : Word) : BitVec 4 := c.extractLsb' 28 4

/-- `D = c[27:24]` (R61). -/
def dField (c : Word) : SlotNo := c.extractLsb' 24 4

/-- `A = c[23:20]` (R61). -/
def aField (c : Word) : SlotNo := c.extractLsb' 20 4

/-- `B = c[19:16]` (R61). -/
def bField (c : Word) : SlotNo := c.extractLsb' 16 4

/-- `V = c[15]` (R61). -/
def vField (c : Word) : Bool := c.getLsbD 15

/-- The command `i` of the row with this match and mask, if `c` spells it: `c & mask = match` (R62). -/
def spells (c pattern mask : Word) (i : Instr) : Except DecodeError Instr :=
  if c &&& mask = pattern then .ok i else .error (.unusedFieldNotZero (opField c))

/-- The command a word spells, or why it spells none (R62, R63(a), R63(b)). R63(c) depends on NSLOT, so the machine checks
it when the command is performed. -/
def decode (c : Word) : Except DecodeError Instr :=
  match (opField c).toNat with
  | 0x0 => .error .reservedOpcode
  | 0x1 => spells c 0x10000000 0xF0FFFFFF (.create (dField c))
  | 0x2 => spells c 0x20000000 0xF0FFFFFF (.createh (dField c))
  | 0x3 => spells c 0x30000000 0xFF0FFFFF (.get (aField c))
  | 0x4 => spells c 0x40000000 0xF0FF7FFF (.set (dField c) (vField c))
  | 0x5 => spells c 0x50000000 0xF0FFFFFF (.toggle (dField c))
  | 0x6 => spells c 0x60000000 0xFF0FFFFF (.size (aField c))
  | 0x7 => spells c 0x70000000 0xFF0FFFFF (.count (aField c))
  | 0x8 => spells c 0x80000000 0xFF00FFFF (.equals (aField c) (bField c))
  | 0x9 => spells c 0x90000000 0xF00FFFFF (.copy (dField c) (aField c))
  | 0xA => spells c 0xA0000000 0xF0FFFFFF (.not (dField c))
  | 0xB => spells c 0xB0000000 0xF000FFFF (.and (dField c) (aField c) (bField c))
  | 0xC => spells c 0xC0000000 0xF000FFFF (.or (dField c) (aField c) (bField c))
  | 0xD => spells c 0xD0000000 0xF000FFFF (.xor (dField c) (aField c) (bField c))
  | 0xE => spells c 0xE0000000 0xFF0FFFFF (.tobin (aField c))
  | _ => spells c 0xF0000000 0xFF0FFFFF (.tohex (aField c))

/-- The command read from a word of `nbits` bits numbered as spec/opcode_table.json numbers them. Every command is one
32-bit value written to CMD (R60), so there are no words to lay out and no byte order (20_memory.md R45). -/
def decodeTableWord (nbits w : Nat) : Option Instr :=
  match decode (BitVec.ofNat 32 (w % 2 ^ nbits)) with
  | .ok i => some i
  | .error _ => none

/-- A command word from its fields, RSV zero (R61). -/
def assemble (op : BitVec 4) (d a b : SlotNo) (v : Bool) : Word :=
  op ++ d ++ a ++ b ++ BitVec.ofBool v ++ (0 : BitVec 15)

/-- The word of a command: unused fields are zero (R62, R66). -/
def encode : Instr → Word
  | .create d => assemble 0x1 d 0 0 false
  | .createh d => assemble 0x2 d 0 0 false
  | .get a => assemble 0x3 0 a 0 false
  | .set d v => assemble 0x4 d 0 0 v
  | .toggle d => assemble 0x5 d 0 0 false
  | .size a => assemble 0x6 0 a 0 false
  | .count a => assemble 0x7 0 a 0 false
  | .equals a b => assemble 0x8 0 a b false
  | .copy d a => assemble 0x9 d a 0 false
  | .not d => assemble 0xA d 0 0 false
  | .and d a b => assemble 0xB d a b false
  | .or d a b => assemble 0xC d a b false
  | .xor d a b => assemble 0xD d a b false
  | .tobin a => assemble 0xE 0 a 0 false
  | .tohex a => assemble 0xF 0 a 0 false

end Sys2Proof
end

