-- ==== Sys2Proof/Config.lean ====
section
/-! DEFINITION. What an implementation fixes, and the free values: the open parameters of 00_scope.md R7 and the unspecified
contents of 10_state.md R36 and 93_implementation_defined.md I2, I4, I5, I11. -/

namespace Sys2Proof

/-- The open parameters of R7. They are the contents of the constant register CONFIG (R31), so State holds them and every
statement over states is a statement for every choice of them. -/
structure Params where
  /-- NSLOT, the number of array slots. -/
  nslot : Nat
  /-- MAXW, the number of words each slot can hold. -/
  maxw : Nat
  deriving DecidableEq, Repr

/-- BASE, the block's base address in the host's address space (20_memory.md R52): an open platform parameter, no value. -/
opaque Config.base : Nat

/-- FREE VALUE. The byte that cell `j` of SIN holds after the `epoch`-th reset until the host writes it (R36, I5). -/
opaque Config.freeSin : (epoch j : Nat) → Byte

/-- FREE VALUE. The byte that cell `j` of SOUT holds after the `epoch`-th reset until an encoder writes it (R36, I4). -/
opaque Config.freeSout : (epoch j : Nat) → Byte

/-- FREE VALUE. The word that `W[slot][k]` holds after the `epoch`-th reset until a command writes it (R36, I2). No command
reads it in a state a run can reach. -/
opaque Config.freeWord : (epoch slot k : Nat) → Word

end Sys2Proof
end

