-- ==== Sys2Proof/Machine/Parameters.lean ====
section
/-! DEFINITION. The constants derived from the parameters (00_scope.md R8), and the parameters of the block that State.reset
describes (log 1). -/

namespace Sys2Proof

/-- MAXBITS, the largest capacity of a slot in bits (R8). -/
def Params.maxBits (p : Params) : Nat := 32 * p.maxw

/-- SIN_CAP, the characters the seed input buffer holds (R8). -/
def Params.sinCap (p : Params) : Nat := 8 * p.maxw

/-- SOUT_CAP, the characters the output buffer holds (R8). -/
def Params.soutCap (p : Params) : Nat := 32 * p.maxw

/-- The parameters of State.reset: the ones 95_test_vectors.md runs its programs with. DESIGN CHOICE, log 1: R7 leaves them
open; every statement over states holds for all of them. -/
def Machine.chosenParams : Params := ⟨4, 2⟩

/-- The host address of byte offset `off` (R52): BASE is open. -/
def Machine.hostAddress (off : Offset) : Nat := Config.base + off.toNat

end Sys2Proof
end

