-- ==== Sys2Proof/Machine/State.lean ====
section
/-! DEFINITION. The state of the block, the inputs the outside world gives it, the reasons a step can stop, and the state
right after reset (10_state.md). -/

namespace Sys2Proof.Machine

/-- A memory as the list of the cells that have been written since reset, by rising cell number (Memory.wf). A cell that is
not listed holds no known value (R36), so no listed cell equals what an unlisted one reads as. -/
abbrev Memory (α : Type) := List (Nat × α)

/-- One slot of the slot file (R21). -/
structure Slot where
  /-- VALID[s]. -/
  valid : Bool
  /-- LEN[s], the capacity in bits; without meaning while `valid` is false (R22). -/
  len : Nat
  /-- W[s][k], by word number k. -/
  words : Memory Word
  deriving DecidableEq, Repr

/-- A slot right after reset: VALID is 0 and no word has been written (R36). LEN is unspecified there; 0 is a DESIGN CHOICE
no rule reads (log 8). -/
def Slot.empty : Slot := ⟨false, 0, []⟩

/-- What the outside world can do to the block (20_memory.md R42, R49, R52; 70_reset_and_hazards.md R150). An access has a
width in bits, so that the accesses R49 forbids can be written down; a write carries the 32 bits of a legal one. -/
inductive Input where
  /-- A host read of `width` bits at byte offset `off`. -/
  | read (width : Nat) (off : Offset)
  /-- A host write of `width` bits, value `v`, at byte offset `off`. -/
  | write (width : Nat) (off : Offset) (v : Word)
  /-- The platform applies reset. -/
  | applyReset
  /-- The platform releases reset. -/
  | releaseReset
  deriving DecidableEq, Repr

/-- Why the bus refuses a host access (R44, R49). -/
inductive BusError where
  /-- The access is not 32 bits wide (R49). -/
  | wrongWidth
  /-- The offset is not a multiple of 4 (R49). -/
  | misaligned
  /-- The offset is reserved (R43, R44). -/
  | reservedOffset
  /-- A read at an offset whose access column lacks R (R44). -/
  | notReadable
  /-- A write to an offset whose access column lacks W (R44). -/
  | notWritable
  deriving DecidableEq, Repr

/-- Where a step stops with a fault. -/
inductive Fault where
  /-- Raised by a host access that R44 does not allow. SAFE: the block's state does not change and the model gives the host
  no value; a real platform goes on in its own way (log 11). -/
  | busError (cause : BusError) (off : Offset)
  /-- Raised by CREATEH when it reads SIN cell `j`, which the host has not written since reset (R36, I5). SAFE: a real part
  reads some byte there and goes on (log 7). -/
  | sinUnwritten (j : Nat)
  deriving DecidableEq, Repr

/-- Where a step has no meaning. -/
inductive Refusal where
  /-- Raised by an arm of exec whose command has no meaning in this model yet. SAFE: the model stops where the block goes
  on. No arm uses it now. -/
  | notModelled (mnemonic : String)
  deriving DecidableEq, Repr

/-- The state of the machine: the block's (10_state.md), and, last, the model's own three fields. -/
structure State where
  /-- CONFIG: the constant register whose fields are NSLOT and MAXW (R31). -/
  params : Params
  /-- The slot file (R21). Places NSLOT .. 15 are not on the block (log 10). -/
  slots : Vector Slot 16
  /-- ARG, the operand register (R24). -/
  arg : Word
  /-- RESULT, the result register (R25). -/
  result : Word
  /-- STATUS.CODE, the outcome of the last command (R26). -/
  code : BitVec 4
  /-- STATUS.STICKY (R26). -/
  sticky : Bool
  /-- SINLEN, the seed length register (R27). -/
  sinlen : Word
  /-- SOUTLEN, the output length register (R28). -/
  soutlen : Word
  /-- SIN, the cells the host has written since reset (R29, R34(c)). -/
  sin : Memory Byte
  /-- SOUT, the cells an encoder has written since reset (R29). -/
  sout : Memory Byte
  /-- CC, the notional command counter (R30). -/
  cc : Nat
  /-- Reset is applied now (R150). -/
  inReset : Bool
  /-- MODEL. The inputs that have not arrived yet, oldest first (log 2). -/
  pending : List Input
  /-- MODEL. The value the last HostRead gave the host (log 4). -/
  readData : Option Word
  /-- MODEL. How many times reset was applied since State.reset: the argument that makes free values fresh (log 6). -/
  resets : Nat
  deriving DecidableEq, Repr

/-- The state right after the reset of a block with parameters `p`: R36, with reset released (R151) and no input pending. -/
def State.resetWith (p : Params) : State where
  params := p
  slots := Vector.replicate 16 Slot.empty
  arg := 0
  result := 0
  code := 0
  sticky := false
  sinlen := 0
  soutlen := 0
  sin := []
  sout := []
  cc := 0
  inReset := false
  pending := []
  readData := none
  resets := 0

/-- The machine right after reset (R36), with the parameters of log 1. -/
def State.reset : State := State.resetWith chosenParams

end Sys2Proof.Machine
end

