-- ==== Sys2Proof/WellFormed.lean ====
section
/-! DEFINITION. Which parameters and which commands are well formed (00_scope.md R7, 30_encoding.md R63(c)). -/

namespace Sys2Proof

/-- The legal parameters: 1 <= NSLOT <= 16 and 1 <= MAXW <= 65535 (R7). -/
def Params.wf (p : Params) : Bool :=
  decide (1 ≤ p.nslot) && decide (p.nslot ≤ 16) && decide (1 ≤ p.maxw) && decide (p.maxw ≤ 65535)

/-- A slot number names a slot of the block: it is below NSLOT (R21, R63(c)). -/
def Params.hasSlot (p : Params) (a : SlotNo) : Bool := decide (a.toNat < p.nslot)

/-- A command is well formed for a block when every slot field it uses names a slot of the block. The other conditions of
R63 are about the word, not the command: the decoder checks them. -/
def Instr.wf (p : Params) (i : Instr) : Bool := i.slots.all p.hasSlot

end Sys2Proof
end

