-- ==== Sys2Proof/Machine/Ops.lean ====
section
/-! DEFINITION. The named operations over memories, slots and registers; reporting an error (60_exceptions.md R130, R133),
which is this block's only kind of exception; and the effect of reset (R150). -/

namespace Sys2Proof.Machine

/-! ### Memories -/

/-- The value of cell `k`, if it has been written since reset. -/
def Memory.read? {α : Type} : Memory α → Nat → Option α
  | [], _ => none
  | (j, x) :: m, k => if j = k then some x else Memory.read? m k

/-- Write `x` to cell `k`. -/
def Memory.write {α : Type} : Memory α → Nat → α → Memory α
  | [], k, x => [(k, x)]
  | (j, y) :: m, k, x =>
    if k < j then (k, x) :: (j, y) :: m
    else if k = j then (k, x) :: m
    else (j, y) :: Memory.write m k x

/-- Write `f 0 .. f (n-1)` to cells 0 .. n-1; every other cell keeps its value (R81, R120). -/
def Memory.fill {α : Type} (m : Memory α) (n : Nat) (f : Nat → α) : Memory α :=
  (List.range n).map (fun k => (k, f k)) ++ m.filter (fun c => n ≤ c.1)

/-- The canonical form: cell numbers rise strictly. -/
def Memory.wf {α : Type} : Memory α → Bool
  | [] => true
  | [_] => true
  | (j, _) :: (k, y) :: m => decide (j < k) && Memory.wf ((k, y) :: m)

/-- Every listed cell number is below `n`. -/
def Memory.below {α : Type} (m : Memory α) (n : Nat) : Bool := m.all fun c => decide (c.1 < n)

/-! ### The slot file -/

/-- Slot `a` of the slot file. -/
def State.slot (s : State) (a : SlotNo) : Slot := s.slots[a.toNat]'a.isLt

/-- Replace slot `d`. -/
def State.putSlot (s : State) (d : SlotNo) (x : Slot) : State := { s with slots := s.slots.set d.toNat x d.isLt }

/-- `W[a][k]` (R21). A word no command has written since reset is a free value (R36). -/
def State.word (s : State) (a : SlotNo) (k : Nat) : Word :=
  ((s.slot a).words.read? k).getD (Config.freeWord s.resets a.toNat k)

/-- `bit(a, i) = W[a][i div 32][31 - (i mod 32)]`, the array bit `i` of slot `a` (R10, R12, R47). -/
def State.bit (s : State) (a : SlotNo) (i : Nat) : Bool := (s.word a (i / 32)).getLsbD (31 - i % 32)

/-- Write slot `d` whole: VALID 1, capacity `len`, word `q` of the array `f q` (R22(c)). -/
def State.putArray (s : State) (d : SlotNo) (len : Nat) (f : Nat → Word) : State :=
  s.putSlot d ⟨true, len, (s.slot d).words.fill (len / 32) f⟩

/-- Write every word of the array of slot `d`, keeping VALID and LEN (R22(c), R110). -/
def State.putWords (s : State) (d : SlotNo) (f : Nat → Word) : State :=
  s.putSlot d { s.slot d with words := (s.slot d).words.fill ((s.slot d).len / 32) f }

/-- Write the one word `W[d][k]`, keeping VALID and LEN (R22(c), R51). -/
def State.putWord (s : State) (d : SlotNo) (k : Nat) (w : Word) : State :=
  s.putSlot d { s.slot d with words := (s.slot d).words.write k w }

/-! ### Registers and character buffers -/

/-- Write RESULT (R25). -/
def State.setResult (s : State) (w : Word) : State := { s with result := w }

/-- Write ARG (R24). -/
def State.setArg (s : State) (w : Word) : State := { s with arg := w }

/-- Write SINLEN (R27). -/
def State.setSinlen (s : State) (w : Word) : State := { s with sinlen := w }

/-- Write the character cell SIN[j] (R29). -/
def State.setSin (s : State) (j : Nat) (c : Byte) : State := { s with sin := s.sin.write j c }

/-- Give the host the value of a read (log 4). -/
def State.setReadData (s : State) (w : Word) : State := { s with readData := some w }

/-- SIN[j] as a read sees it: unspecified, so a free value, until the host writes it (R36, log 6). -/
def State.sinChar (s : State) (j : Nat) : Byte := (s.sin.read? j).getD (Config.freeSin s.resets j)

/-- SOUT[j] as a read sees it: unspecified, so a free value, until an encoder writes it (R36, log 6). -/
def State.soutChar (s : State) (j : Nat) : Byte := (s.sout.read? j).getD (Config.freeSout s.resets j)

/-- Write the text `f 0 .. f (n-1)` to SOUT[0 .. n-1] and `n` to SOUTLEN; cells from `n` on keep their values (R120). -/
def State.putText (s : State) (n : Nat) (f : Nat → Byte) : State :=
  { s with sout := s.sout.fill n f, soutlen := BitVec.ofNat 32 n }

/-- `CC <- CC + 1` (R30). -/
def State.tick (s : State) : State := { s with cc := s.cc + 1 }

/-! ### Errors: the block's exceptions -/

/-- The errors a command can report (R130). -/
inductive ErrorCode where
  | indexOutOfRange
  | seedOverflow
  | capacityMismatch
  | malformedHexInput
  | capacityLimit
  | illegalCommand
  | slotUnallocated
  deriving DecidableEq, Repr

/-- `code(E)`: the value of STATUS.CODE that reports an error (R130). -/
def ErrorCode.code : ErrorCode → BitVec 4
  | .indexOutOfRange => 1
  | .seedOverflow => 2
  | .capacityMismatch => 3
  | .malformedHexInput => 4
  | .capacityLimit => 5
  | .illegalCommand => 6
  | .slotUnallocated => 7

/-- `raise E` (R133): what taking an exception is on this block. STATUS records the error and nothing else changes: no mode,
no saved state, no vector. -/
def State.raise (s : State) (e : ErrorCode) : State := { s with code := e.code, sticky := true }

/-- A command's success: `STATUS.CODE <- 0` (R64). STICKY stays (R26). This is also all there is to the return from an
exception: nothing was entered, and the next command overwrites CODE (R134). -/
def State.succeed (s : State) : State := { s with code := 0 }

/-! ### Reset -/

/-- The effect of applying reset (R150): every piece of state takes its value of R36, and reset stays applied until the
platform releases it. The inputs still to come and what the host has read are not the block's; a new epoch makes the
unspecified cells fresh. -/
def State.applyReset (s : State) : State :=
  { State.resetWith s.params with
    inReset := true, pending := s.pending, readData := s.readData, resets := s.resets + 1 }

end Sys2Proof.Machine
end

