-- ==== Sys2Proof/Machine/Operands.lean ====
section
/-! DEFINITION. The operands of commands and the functions over them: slot checks (R130, R132), capacity rounding (R80), the
bit-index-to-word-offset mapper (R90), hex digits (R14, R82), the seed decoder (R83), population count (R11). -/

namespace Sys2Proof.Machine

/-! ### How a command's body ends, and the checks it makes -/

/-- How the body of a command ends: it commits the writes it computed, raises an error, or stops the model with a fault. -/
inductive Ending where
  /-- Commit: `s` is the state with every write the body computed; CODE is not yet written (R64). -/
  | commit (s : State)
  /-- `raise E` (R133). -/
  | error (e : ErrorCode)
  /-- The model stops (R36). -/
  | stop (f : Fault)

/-- Go on with the body only if `ok` holds, else raise `e`. -/
def Ending.require (ok : Bool) (e : ErrorCode) (k : Ending) : Ending := if ok then k else .error e

/-- Perform a command that uses the slots `used` (R64): ILLEGAL_COMMAND when one of them is not a slot of the block
(R63(c)), before any other check (R132); else the end of the body, with STATUS written (R133). -/
def runCommand (s : State) (used : List SlotNo) (body : Ending) : Host.Outcome State Fault Refusal :=
  if used.all s.params.hasSlot then
    match body with
    | .commit t => .next t.succeed
    | .error e => .next (s.raise e)
    | .stop f => .fault f
  else .next (s.raise .illegalCommand)

/-- The check that every slot a command reads holds an array (R130, SLOT_UNALLOCATED). -/
def State.allValid (s : State) (as : List SlotNo) : Bool := as.all fun a => (s.slot a).valid

/-! ### Capacity rounding -/

/-- `roundcap(r) = 32 * ceil(r / 32)`, exact (R80). -/
def roundcap (r : Nat) : Nat := 32 * ((r + 31) / 32)

/-! ### The mapper -/

/-- The outputs of the mapper (R90). -/
structure Mapped where
  inRange : Bool
  wordIndex : Nat
  offset : Nat
  mask : Word
  deriving DecidableEq, Repr

/-- `map(i, L)`, the bit-index-to-word-offset mapper (R90). -/
def mapIndex (i : Word) (len : Nat) : Mapped where
  inRange := decide (i.toNat < len)
  wordIndex := (i.extractLsb' 5 27).toNat
  offset := (i.extractLsb' 0 5).toNat
  mask := 0x80000000#32 >>> (i.extractLsb' 0 5).toNat

/-! ### Hex digits and the seed decoder -/

/-- A character code is a hex digit (R82). -/
def isHexDigit (c : Byte) : Bool :=
  (decide (0x30 ≤ c.toNat) && decide (c.toNat ≤ 0x39)) ||
  (decide (0x41 ≤ c.toNat) && decide (c.toNat ≤ 0x46)) ||
  (decide (0x61 ≤ c.toNat) && decide (c.toNat ≤ 0x66))

/-- The value of a hex digit, upper and lower case alike (R14). Used on hex digits only. -/
def hexval (c : Byte) : Nat :=
  if c.toNat ≤ 0x39 then c.toNat - 0x30
  else if c.toNat ≤ 0x46 then c.toNat - 0x41 + 10
  else c.toNat - 0x61 + 10

/-- The lower-case digit of value `n`, `n <= 15` (R14). -/
def hexchar (n : Nat) : Byte := if n < 10 then BitVec.ofNat 8 (0x30 + n) else BitVec.ofNat 8 (0x61 + (n - 10))

/-- Character `k` of the padded text: `pad` characters `'0'`, then the seed `t` (R83). -/
def paddedChar (pad : Nat) (t : Nat → Byte) (k : Nat) : Byte := if k < pad then 0x30 else t (k - pad)

/-- Word `q` of the seed decoder's result: the sum of the eight digits of the padded text, each at its place (R83). -/
def decodeWord (pad : Nat) (t : Nat → Byte) (q : Nat) : Word :=
  BitVec.ofNat 32
    ((List.range 8).map fun u => hexval (paddedChar pad t (8 * q + u)) <<< (4 * (7 - u))).sum

/-- The first cell of SIN[0 .. n-1] that the host has not written since reset, if there is one (R36, I5). -/
def State.firstUnwritten (s : State) (n : Nat) : Option Nat := (List.range n).find? fun j => (s.sin.read? j).isNone

/-- Every character of the seed SIN[0 .. n-1] is a hex digit (R84). -/
def State.seedIsHex (s : State) (n : Nat) : Bool := (List.range n).all fun j => isHexDigit (s.sinChar j)

/-! ### Population count, equality and digits -/

/-- `popcount32(w)`: the number of `p` in 0 .. 31 with `w[p] = 1` (R11). -/
def popcount32 (w : Word) : Nat := (List.range 32).countP fun p => w.getLsbD p

/-- The population count of the array of slot `a` (R101). -/
def State.popcount (s : State) (a : SlotNo) : Nat :=
  ((List.range ((s.slot a).len / 32)).map fun q => popcount32 (s.word a q)).sum

/-- The arrays of slots `a` and `b` have equal words, over the capacity of `a` (R102). -/
def State.sameWords (s : State) (a b : SlotNo) : Bool :=
  (List.range ((s.slot a).len / 32)).all fun q => decide (s.word a q = s.word b q)

/-- Character `j` of the binary text of slot `a` (R121). -/
def State.binChar (s : State) (a : SlotNo) (j : Nat) : Byte := if s.bit a j then 0x31 else 0x30

/-- Character `k` of the hex text of slot `a`: array bits 4k .. 4k+3, most significant first (R122). -/
def State.hexChar (s : State) (a : SlotNo) (k : Nat) : Byte :=
  hexchar ((s.word a (k / 8) >>> (4 * (7 - k % 8))) &&& 0xF#32).toNat

end Sys2Proof.Machine
end

