-- ==== Sys2Proof/Machine/BitAccess.lean ====
section
/-! DEFINITION. GET, SET and TOGGLE (41_bit_access.md). -/

namespace Sys2Proof.Machine

/-- What GET, SET and TOGGLE share: slot `a` must be valid and ARG in range (R91); then `k` gets the mapper's outputs. -/
def withBit (s : State) (a : SlotNo) (k : Mapped → State) : Ending :=
  let m := mapIndex s.arg (s.slot a).len
  .require (s.allValid [a]) .slotUnallocated <|
  .require m.inRange .indexOutOfRange <|
  .commit (k m)

/-- GET sA: `RESULT <- (W[a][k] & m != 0) ? 1 : 0` (R92). -/
def execGet (a : SlotNo) (s : State) : Host.Outcome State Fault Refusal :=
  runCommand s [a] <| withBit s a fun m =>
    s.setResult (if s.word a m.wordIndex &&& m.mask ≠ 0 then 1 else 0)

/-- SET sD, v: one bit of one word of slot D is set or cleared by its mask (R93). -/
def execSet (d : SlotNo) (v : Bool) (s : State) : Host.Outcome State Fault Refusal :=
  runCommand s [d] <| withBit s d fun m =>
    s.putWord d m.wordIndex
      (if v then s.word d m.wordIndex ||| m.mask else s.word d m.wordIndex &&& ~~~m.mask)

/-- TOGGLE sD: one bit of one word of slot D is inverted by its mask (R94). -/
def execToggle (d : SlotNo) (s : State) : Host.Outcome State Fault Refusal :=
  runCommand s [d] <| withBit s d fun m =>
    s.putWord d m.wordIndex (s.word d m.wordIndex ^^^ m.mask)

end Sys2Proof.Machine
end

