-- ==== Sys2Proof/Machine/Boolean.lean ====
section
/-! DEFINITION. NOT, AND, OR and XOR (43_boolean.md). -/

namespace Sys2Proof.Machine

/-- NOT sD: every word of slot D is complemented in place (R110). -/
def execNot (d : SlotNo) (s : State) : Host.Outcome State Fault Refusal :=
  runCommand s [d] <|
    .require (s.allValid [d]) .slotUnallocated <|
    .commit (s.putWords d fun q => ~~~(s.word d q))

/-- The shared rule of AND, OR and XOR (R111): slot D gets the word-wise `op` of slots A and B, both read before D is
written. -/
def binop (op : Word → Word → Word) (d a b : SlotNo) (s : State) : Host.Outcome State Fault Refusal :=
  runCommand s [d, a, b] <|
    .require (s.allValid [a, b]) .slotUnallocated <|
    .require (decide ((s.slot a).len = (s.slot b).len)) .capacityMismatch <|
    .commit (s.putArray d (s.slot a).len fun q => op (s.word a q) (s.word b q))

/-- AND sD, sA, sB (R112). -/
def execAnd (d a b : SlotNo) (s : State) : Host.Outcome State Fault Refusal := binop (· &&& ·) d a b s

/-- OR sD, sA, sB (R113). -/
def execOr (d a b : SlotNo) (s : State) : Host.Outcome State Fault Refusal := binop (· ||| ·) d a b s

/-- XOR sD, sA, sB (R114). -/
def execXor (d a b : SlotNo) (s : State) : Host.Outcome State Fault Refusal := binop (· ^^^ ·) d a b s

end Sys2Proof.Machine
end

