-- ==== Sys2Proof/Machine/Create.lean ====
section
/-! DEFINITION. CREATE and CREATEH (40_create.md). -/

namespace Sys2Proof.Machine

/-- CREATE sD: an all-zero array in slot D (R81). -/
def execCreate (d : SlotNo) (s : State) : Host.Outcome State Fault Refusal :=
  let len := roundcap s.arg.toNat
  runCommand s [d] <|
    .require (decide (len ≤ s.params.maxBits)) .capacityLimit <|
    .commit (s.putArray d len fun _ => 0)

/-- CREATEH sD: an array in slot D from the hex seed in SIN (R84). The seed is read, and an unwritten cell of it found (R36),
after the length checks (R85) and before its characters are judged. -/
def execCreateh (d : SlotNo) (s : State) : Host.Outcome State Fault Refusal :=
  let len := roundcap s.arg.toNat
  let n := s.sinlen.toNat
  runCommand s [d] <|
    .require (decide (len ≤ s.params.maxBits)) .capacityLimit <|
    .require (decide (4 * n ≤ len)) .seedOverflow <|
    match s.firstUnwritten n with
    | some j => .stop (.sinUnwritten j)
    | none =>
      .require (s.seedIsHex n) .malformedHexInput <|
      .commit (s.putArray d len (decodeWord (len / 4 - n) s.sinChar))

end Sys2Proof.Machine
end

