-- ==== Sys2Proof/Machine/Encoders.lean ====
section
/-! DEFINITION. TOBIN and TOHEX (44_encoders.md). -/

namespace Sys2Proof.Machine

/-- TOBIN sA: the binary text of slot A, LEN characters, into SOUT (R121). -/
def execTobin (a : SlotNo) (s : State) : Host.Outcome State Fault Refusal :=
  runCommand s [a] <|
    .require (s.allValid [a]) .slotUnallocated <|
    .commit (s.putText (s.slot a).len (s.binChar a))

/-- TOHEX sA: the hex text of slot A, LEN/4 characters, into SOUT (R122). -/
def execTohex (a : SlotNo) (s : State) : Host.Outcome State Fault Refusal :=
  runCommand s [a] <|
    .require (s.allValid [a]) .slotUnallocated <|
    .commit (s.putText ((s.slot a).len / 4) (s.hexChar a))

end Sys2Proof.Machine
end

