-- ==== Sys2Proof/Machine/QueryCopy.lean ====
section
/-! DEFINITION. SIZE, COUNT, EQUALS and COPY (42_query_copy.md). -/

namespace Sys2Proof.Machine

/-- SIZE sA: `RESULT <- LEN[a]` (R100). -/
def execSize (a : SlotNo) (s : State) : Host.Outcome State Fault Refusal :=
  runCommand s [a] <|
    .require (s.allValid [a]) .slotUnallocated <|
    .commit (s.setResult (BitVec.ofNat 32 (s.slot a).len))

/-- COUNT sA: RESULT gets the population count of slot A (R101). -/
def execCount (a : SlotNo) (s : State) : Host.Outcome State Fault Refusal :=
  runCommand s [a] <|
    .require (s.allValid [a]) .slotUnallocated <|
    .commit (s.setResult (BitVec.ofNat 32 (s.popcount a)))

/-- EQUALS sA, sB: RESULT is 1 when capacities and words agree, else 0; a difference in capacity is no error (R102). -/
def execEquals (a b : SlotNo) (s : State) : Host.Outcome State Fault Refusal :=
  runCommand s [a, b] <|
    .require (s.allValid [a, b]) .slotUnallocated <|
    .commit (s.setResult (if (s.slot a).len = (s.slot b).len ∧ s.sameWords a b then 1 else 0))

/-- COPY sD, sA: slot D becomes an independent copy of slot A (R103). -/
def execCopy (d a : SlotNo) (s : State) : Host.Outcome State Fault Refusal :=
  runCommand s [d, a] <|
    .require (s.allValid [a]) .slotUnallocated <|
    .commit (s.putArray d (s.slot a).len (s.word a))

end Sys2Proof.Machine
end

