-- ==== Sys2Proof/Machine/Dispatch.lean ====
section
/-! DEFINITION. One arm per command, each a call of its meaning (30_encoding.md R62, R64). -/

namespace Sys2Proof.Machine

def exec (i : Instr) (s : State) : Host.Outcome State Fault Refusal :=
  match i with
  | .create d => Sys2Proof.Machine.execCreate d s
  | .createh d => Sys2Proof.Machine.execCreateh d s
  | .get a => Sys2Proof.Machine.execGet a s
  | .set d v => Sys2Proof.Machine.execSet d v s
  | .toggle d => Sys2Proof.Machine.execToggle d s
  | .size a => Sys2Proof.Machine.execSize a s
  | .count a => Sys2Proof.Machine.execCount a s
  | .equals a b => Sys2Proof.Machine.execEquals a b s
  | .copy d a => Sys2Proof.Machine.execCopy d a s
  | .not d => Sys2Proof.Machine.execNot d s
  | .and d a b => Sys2Proof.Machine.execAnd d a b s
  | .or d a b => Sys2Proof.Machine.execOr d a b s
  | .xor d a b => Sys2Proof.Machine.execXor d a b s
  | .tobin a => Sys2Proof.Machine.execTobin a s
  | .tohex a => Sys2Proof.Machine.execTohex a s

end Sys2Proof.Machine
end

