-- ==== Sys2Proof/Machine/Flags.lean ====
section
/-! DEFINITION. The values of the read-only registers as a host read sees them: STATUS (10_state.md R26), the block's only
condition state, and CONFIG (R31). -/

namespace Sys2Proof.Machine

/-- STATUS: CODE in bits 3:0, STICKY in bit 8, every other bit 0 (R26, R42). -/
def State.statusWord (s : State) : Word :=
  ((BitVec.ofBool s.sticky).setWidth 32 <<< 8) ||| s.code.setWidth 32

/-- CONFIG: NSLOT in bits 7:0, MAXW in bits 31:16, bits 15:8 zero (R31, R42). -/
def State.configWord (s : State) : Word :=
  (BitVec.ofNat 32 s.params.maxw <<< 16) ||| BitVec.ofNat 32 s.params.nslot

end Sys2Proof.Machine
end

