-- ==== Sys2Proof/Machine/HostAccess.lean ====
section
/-! DEFINITION. Host accesses (20_memory.md R40 to R50), performing a command (30_encoding.md R64), and the platform's reset
(70_reset_and_hazards.md R150). -/

namespace Sys2Proof.Machine

/-! ### The address map -/

/-- What stands at an offset of the host register space (R43). -/
inductive Place where
  | cmd
  | arg
  | result
  | status
  | sinlen
  | soutlen
  | config
  | sin (j : Nat)
  | sout (j : Nat)
  | reserved
  deriving DecidableEq, Repr

/-- The place at an aligned byte offset (R43). -/
def placeAt (p : Params) (off : Nat) : Place :=
  if off = 0x000 then .cmd
  else if off = 0x004 then .arg
  else if off = 0x008 then .result
  else if off = 0x00C then .status
  else if off = 0x010 then .sinlen
  else if off = 0x014 then .soutlen
  else if off = 0x018 then .config
  else if 0x400000 ≤ off ∧ off < 0x400000 + 4 * p.sinCap then .sin ((off - 0x400000) / 4)
  else if 0x800000 ≤ off ∧ off < 0x800000 + 4 * p.soutCap then .sout ((off - 0x800000) / 4)
  else .reserved

/-- The access column has R (R43). -/
def Place.readable : Place → Bool
  | .cmd => false
  | .arg => true
  | .result => true
  | .status => true
  | .sinlen => true
  | .soutlen => true
  | .config => true
  | .sin _ => true
  | .sout _ => true
  | .reserved => false

/-- The access column has W (R43). -/
def Place.writable : Place → Bool
  | .cmd => true
  | .arg => true
  | .result => false
  | .status => false
  | .sinlen => true
  | .soutlen => false
  | .config => false
  | .sin _ => true
  | .sout _ => false
  | .reserved => false

/-- Why a read of `width` bits at `off` is a bus error, if it is one (R44, R49). R44 gives no order among the causes; the
one reported first is log 11. -/
def readError (p : Params) (width : Nat) (off : Offset) : Option BusError :=
  if width ≠ 32 then some .wrongWidth
  else if off.toNat % 4 ≠ 0 then some .misaligned
  else if placeAt p off.toNat = .reserved then some .reservedOffset
  else if (placeAt p off.toNat).readable then none
  else some .notReadable

/-- Why a write of `width` bits at `off` is a bus error, if it is one (R44, R49). -/
def writeError (p : Params) (width : Nat) (off : Offset) : Option BusError :=
  if width ≠ 32 then some .wrongWidth
  else if off.toNat % 4 ≠ 0 then some .misaligned
  else if placeAt p off.toNat = .reserved then some .reservedOffset
  else if (placeAt p off.toNat).writable then none
  else some .notWritable

/-! ### Commands and accesses -/

/-- `perform_command(c)` (R64): CC advances, an illegal word raises ILLEGAL_COMMAND, any other runs its command. -/
def performCommand (c : Word) (s : State) : Host.Outcome State Fault Refusal :=
  match decode c with
  | .ok i => exec i s.tick
  | .error _ => .next (s.tick.raise .illegalCommand)

/-- The value a host read gives (R42). CMD and reserved offsets are never read (R44); their lines are there to be total. -/
def State.readPlace (s : State) : Place → Word
  | .cmd => 0
  | .arg => s.arg
  | .result => s.result
  | .status => s.statusWord
  | .sinlen => s.sinlen
  | .soutlen => s.soutlen
  | .config => s.configWord
  | .sin j => (s.sinChar j).setWidth 32
  | .sout j => (s.soutChar j).setWidth 32
  | .reserved => 0

/-- `HostRead(off)` (R42). -/
def hostRead (width : Nat) (off : Offset) (s : State) : Host.Outcome State Fault Refusal :=
  match readError s.params width off with
  | some e => .fault (.busError e off)
  | none => .next (s.setReadData (s.readPlace (placeAt s.params off.toNat)))

/-- `HostWrite(off, v)` (R42). The read-only and reserved places are never written (R44); their lines are there to be
total. -/
def hostWrite (width : Nat) (off : Offset) (v : Word) (s : State) : Host.Outcome State Fault Refusal :=
  match writeError s.params width off with
  | some e => .fault (.busError e off)
  | none =>
    match placeAt s.params off.toNat with
    | .cmd => performCommand v s
    | .arg => .next (s.setArg v)
    | .result => .next s
    | .status => .next s
    | .sinlen => .next (s.setSinlen v)
    | .soutlen => .next s
    | .config => .next s
    | .sin j => .next (s.setSin j (v.setWidth 8))
    | .sout _ => .next s
    | .reserved => .next s

/-- One input. An access that arrives while reset is applied has no effect (R150, log 5). -/
def performInput (x : Input) (s : State) : Host.Outcome State Fault Refusal :=
  match x with
  | .read width off => if s.inReset then .next s else hostRead width off s
  | .write width off v => if s.inReset then .next s else hostWrite width off v s
  | .applyReset => .next s.applyReset
  | .releaseReset => .next { s with inReset := false }

/-- The next input, if there is one, and the state in which it has arrived (R53). -/
def State.takeInput (s : State) : Option (Input × State) :=
  match s.pending with
  | [] => none
  | x :: rest => some (x, { s with pending := rest })

/-- The host is about to write the command word `c` to CMD, and reset is not applied. -/
def State.withCommand (s : State) (c : Word) : State :=
  { s with pending := .write 32 0 c :: s.pending, inReset := false }

end Sys2Proof.Machine
end

