-- ==== Sys2Proof/Machine/Step.lean ====
section
/-! DEFINITION. One step of the machine: the next input arrives and is performed whole (20_memory.md R50, R53). -/

namespace Sys2Proof.Machine

/-- One step. With no input to come the block holds its state unchanged (60_exceptions.md R140, log 3). -/
def step (s : State) : Host.Outcome State Fault Refusal :=
  match s.takeInput with
  | none => .next s
  | some (x, t) => performInput x t

/-- `s` with the command word `w` of `nbits` bits as the host's very next access, a write to CMD: the block fetches nothing
(R55), so this is where a command comes from (log 2). -/
def State.withFetchWord (s : State) (nbits w : Nat) : State :=
  s.withCommand (BitVec.ofNat 32 (w % 2 ^ nbits))

end Sys2Proof.Machine
end

