-- ==== Sys2Proof/Machine/HostActions.lean ====
section
/-! DEFINITION. What the host writes programs with: the assembler's text of a command (30_encoding.md R68), host actions as
the accesses they stand for (R70), and the pseudo-instructions as their expansions (R69). The machine does not use these; they
say which inputs a line of a program is. -/

namespace Sys2Proof

/-- The name of a slot operand: `s0` to `s15` (R68). -/
def slotText (a : SlotNo) : String := "s" ++ toString a.toNat

/-- The assembler's text of a command (R68). -/
def Instr.asmText : Instr → String
  | .create d => "CREATE " ++ slotText d
  | .createh d => "CREATEH " ++ slotText d
  | .get a => "GET " ++ slotText a
  | .set d v => "SET " ++ slotText d ++ (if v then ", 1" else ", 0")
  | .toggle d => "TOGGLE " ++ slotText d
  | .size a => "SIZE " ++ slotText a
  | .count a => "COUNT " ++ slotText a
  | .equals a b => "EQUALS " ++ slotText a ++ ", " ++ slotText b
  | .copy d a => "COPY " ++ slotText d ++ ", " ++ slotText a
  | .not d => "NOT " ++ slotText d
  | .and d a b => "AND " ++ slotText d ++ ", " ++ slotText a ++ ", " ++ slotText b
  | .or d a b => "OR " ++ slotText d ++ ", " ++ slotText a ++ ", " ++ slotText b
  | .xor d a b => "XOR " ++ slotText d ++ ", " ++ slotText a ++ ", " ++ slotText b
  | .tobin a => "TOBIN " ++ slotText a
  | .tohex a => "TOHEX " ++ slotText a

namespace Machine

/-- A line of a program (R68, R70). -/
inductive Line where
  /-- A command: one write to CMD. -/
  | command (i : Instr)
  /-- `ARG <- n`. -/
  | arg (n : Word)
  /-- `SEED "t"`, by the codes of its characters. -/
  | seed (t : List Byte)
  /-- `READ RESULT`. -/
  | readResult
  /-- `READ STATUS`. -/
  | readStatus
  /-- `READ SOUTLEN`. -/
  | readSoutlen
  /-- `READ SOUT` of a text of `n` characters, `n` being SOUTLEN when the line is reached. -/
  | readSout (n : Nat)
  deriving DecidableEq, Repr

/-- The writes of a text to SIN from cell `j` on (R70). -/
def sinWrites : Nat → List Byte → List Input
  | _, [] => []
  | j, c :: t => .write 32 (BitVec.ofNat 24 (0x400000 + 4 * j)) (c.setWidth 32) :: sinWrites (j + 1) t

/-- The host accesses a line stands for (R60, R70). -/
def Line.inputs : Line → List Input
  | .command i => [.write 32 0x000 (encode i)]
  | .arg n => [.write 32 0x004 n]
  | .seed t => sinWrites 0 t ++ [.write 32 0x010 (BitVec.ofNat 32 t.length)]
  | .readResult => [.read 32 0x008]
  | .readStatus => [.read 32 0x00C]
  | .readSoutlen => [.read 32 0x014]
  | .readSout n => (List.range n).map fun j => .read 32 (BitVec.ofNat 24 (0x800000 + 4 * j))

/-- The pseudo-instructions (R69). -/
inductive Pseudo where
  | bset (d : SlotNo)
  | bclr (d : SlotNo)
  | tostr (a : SlotNo)
  | mov (d a : SlotNo)
  | new (d : SlotNo) (r : Word)
  | newh (d : SlotNo) (r : Word) (t : List Byte)
  | geti (a : SlotNo) (i : Word)
  | seti (d : SlotNo) (i : Word) (v : Bool)
  | togi (d : SlotNo) (i : Word)
  deriving DecidableEq, Repr

/-- The expansion of a pseudo-instruction (R69). -/
def Pseudo.expand : Pseudo → List Line
  | .bset d => [.command (.set d true)]
  | .bclr d => [.command (.set d false)]
  | .tostr a => [.command (.tobin a)]
  | .mov d a => [.command (.copy d a)]
  | .new d r => [.arg r, .command (.create d)]
  | .newh d r t => [.seed t, .arg r, .command (.createh d)]
  | .geti a i => [.arg i, .command (.get a)]
  | .seti d i v => [.arg i, .command (.set d v)]
  | .togi d i => [.arg i, .command (.toggle d)]

end Machine

end Sys2Proof
end

