-- ==== Sys2Proof/Safety.lean ====
section
/-! DEFINITION. What a good state, a legal access and an undisturbed state are, in the terms claims use, each written from
the spec's rule and not from the machine's code. -/

namespace Sys2Proof

/-! ### The errors of each command -/

/-- The codes of the errors a command can raise, in check order (R131). -/
def Instr.errors : Instr → List Nat
  | .create _ => [6, 5]
  | .createh _ => [6, 5, 2, 4]
  | .get _ => [6, 7, 1]
  | .set _ _ => [6, 7, 1]
  | .toggle _ => [6, 7, 1]
  | .size _ => [6, 7]
  | .count _ => [6, 7]
  | .equals _ _ => [6, 7]
  | .copy _ _ => [6, 7]
  | .not _ => [6, 7]
  | .and _ _ _ => [6, 7, 3]
  | .or _ _ _ => [6, 7, 3]
  | .xor _ _ _ => [6, 7, 3]
  | .tobin _ => [6, 7]
  | .tohex _ => [6, 7]

/-- The condition of each error code for a command, in the terms of R130: a slot field that names no slot of the block (6), a
source slot that holds no array (7), a capacity over MAXBITS (5), a bit index at or above LEN (1), a seed longer than the
rounded capacity (2), sources of different capacity (3), a seed character that is no hex digit (4). -/
def Instr.Raises (i : Instr) (s : Machine.State) : Nat → Prop
  | 1 => ∃ a ∈ i.sources, (s.slot a).len ≤ s.arg.toNat
  | 2 => Machine.roundcap s.arg.toNat < 4 * s.sinlen.toNat
  | 3 => ∃ a ∈ i.sources, ∃ b ∈ i.sources, (s.slot a).len ≠ (s.slot b).len
  | 4 => ∃ j < s.sinlen.toNat, ∃ c, s.sin.read? j = some c ∧ Machine.isHexDigit c = false
  | 5 => 32 * s.params.maxw < Machine.roundcap s.arg.toNat
  | 6 => ∃ a ∈ i.slots, s.params.nslot ≤ a.toNat
  | 7 => ∃ a ∈ i.sources, (s.slot a).valid = false
  | _ => False

namespace Machine

/-! ### The invariant -/

/-- What holds of slot `a`: its storage is in canonical form and inside W[a][0 .. MAXW-1] (R21); and if it is valid it is a
slot of the block, its capacity is a multiple of 32 and at most MAXBITS (R21, R22(a)), and every word of its array has been
written (R22(b)). -/
abbrev State.SlotOk (s : State) (a : SlotNo) : Prop :=
  (s.slot a).words.wf = true ∧ (s.slot a).words.below s.params.maxw = true ∧
  ((s.slot a).valid = true →
    a.toNat < s.params.nslot ∧ (s.slot a).len % 32 = 0 ∧ (s.slot a).len ≤ 32 * s.params.maxw ∧
    ∀ k < (s.slot a).len / 32, ((s.slot a).words.read? k).isSome = true)

/-- The invariant every step keeps. -/
structure State.Inv (s : State) : Prop where
  /-- The parameters are legal (R7). -/
  params : s.params.wf = true
  /-- Every slot is in order (R21, R22). -/
  slots : ∀ a, s.SlotOk a
  /-- CODE is one of 0 .. 7 (R26). -/
  code : s.code.toNat ≤ 7
  /-- A command that ended in an error left STICKY set (R26, R133). -/
  sticky : s.code ≠ 0 → s.sticky = true
  /-- RESULT never exceeds MAXBITS (R25). -/
  result : s.result.toNat ≤ 32 * s.params.maxw
  /-- The written SIN cells are in canonical form and below SIN_CAP (R29). -/
  sin : s.sin.wf = true ∧ s.sin.below (8 * s.params.maxw) = true
  /-- The written SOUT cells are in canonical form and below SOUT_CAP (R29). -/
  sout : s.sout.wf = true ∧ s.sout.below (32 * s.params.maxw) = true
  /-- SOUTLEN is at most SOUT_CAP, and SOUT[0 .. SOUTLEN-1] has been written (R120). -/
  text : s.soutlen.toNat ≤ 32 * s.params.maxw ∧ ∀ j < s.soutlen.toNat, (s.sout.read? j).isSome = true
  /-- While reset is applied the block's state is its reset state (R150). -/
  reset : s.inReset = true →
    s = { State.resetWith s.params with
          inReset := true, pending := s.pending, readData := s.readData, resets := s.resets }

/-! ### Legal accesses -/

/-- A read that R43, R44 and R49 allow: 32 bits wide, aligned, at an offset whose access column has R. -/
abbrev ReadAllowed (p : Params) (width : Nat) (off : Offset) : Prop :=
  width = 32 ∧ off.toNat % 4 = 0 ∧
  ((0x000004 ≤ off.toNat ∧ off.toNat ≤ 0x000018) ∨
   (0x400000 ≤ off.toNat ∧ off.toNat < 0x400000 + 4 * (8 * p.maxw)) ∨
   (0x800000 ≤ off.toNat ∧ off.toNat < 0x800000 + 4 * (32 * p.maxw)))

/-- A write that R43, R44 and R49 allow: 32 bits wide, aligned, at CMD, ARG, SINLEN or a SIN cell. -/
abbrev WriteAllowed (p : Params) (width : Nat) (off : Offset) : Prop :=
  width = 32 ∧ off.toNat % 4 = 0 ∧
  (off = 0x000000 ∨ off = 0x000004 ∨ off = 0x000010 ∨
   (0x400000 ≤ off.toNat ∧ off.toNat < 0x400000 + 4 * (8 * p.maxw)))

/-! ### Frames of commands that end in success -/

/-- `t` is `s` with CODE 0, but for the slot file, and there every slot other than `d` is as in `s`. -/
def State.ChangesOnlySlot (s : State) (d : SlotNo) (t : State) : Prop :=
  { t with slots := s.slots } = { s with code := 0 } ∧ ∀ a, a ≠ d → t.slot a = s.slot a

/-- `t` is `s` with CODE 0, but for SOUT and SOUTLEN. -/
def State.ChangesOnlyText (s t : State) : Prop :=
  { t with sout := s.sout, soutlen := s.soutlen } = { s with code := 0 }

/-! ### Encodings as the spec writes them -/

/-- Every word with this match and mask spells the command that `build` reads from it (R62). -/
def Spells (pattern mask : Word) (build : Word → Instr) : Prop :=
  ∀ c, c &&& mask = pattern → decode c = .ok (build c)

/-- A row of the opcode map: its match, its mask, and the command a word of the row spells. -/
structure CommandRow where
  pattern : Word
  mask : Word
  build : Word → Instr

/-- The opcode map of R62, row by row. -/
def commandRows : List CommandRow :=
  [ ⟨0x10000000, 0xF0FFFFFF, fun c => .create (c.extractLsb' 24 4)⟩
  , ⟨0x20000000, 0xF0FFFFFF, fun c => .createh (c.extractLsb' 24 4)⟩
  , ⟨0x30000000, 0xFF0FFFFF, fun c => .get (c.extractLsb' 20 4)⟩
  , ⟨0x40000000, 0xF0FF7FFF, fun c => .set (c.extractLsb' 24 4) (c.getLsbD 15)⟩
  , ⟨0x50000000, 0xF0FFFFFF, fun c => .toggle (c.extractLsb' 24 4)⟩
  , ⟨0x60000000, 0xFF0FFFFF, fun c => .size (c.extractLsb' 20 4)⟩
  , ⟨0x70000000, 0xFF0FFFFF, fun c => .count (c.extractLsb' 20 4)⟩
  , ⟨0x80000000, 0xFF00FFFF, fun c => .equals (c.extractLsb' 20 4) (c.extractLsb' 16 4)⟩
  , ⟨0x90000000, 0xF00FFFFF, fun c => .copy (c.extractLsb' 24 4) (c.extractLsb' 20 4)⟩
  , ⟨0xA0000000, 0xF0FFFFFF, fun c => .not (c.extractLsb' 24 4)⟩ ] ++
  [ ⟨0xB0000000, 0xF000FFFF, fun c => .and (c.extractLsb' 24 4) (c.extractLsb' 20 4) (c.extractLsb' 16 4)⟩
  , ⟨0xC0000000, 0xF000FFFF, fun c => .or (c.extractLsb' 24 4) (c.extractLsb' 20 4) (c.extractLsb' 16 4)⟩
  , ⟨0xD0000000, 0xF000FFFF, fun c => .xor (c.extractLsb' 24 4) (c.extractLsb' 20 4) (c.extractLsb' 16 4)⟩
  , ⟨0xE0000000, 0xFF0FFFFF, fun c => .tobin (c.extractLsb' 20 4)⟩
  , ⟨0xF0000000, 0xFF0FFFFF, fun c => .tohex (c.extractLsb' 20 4)⟩ ]

/-! ### Texts -/

/-- `lowercase` of R86: 'A' .. 'F' become 'a' .. 'f'. -/
def lowercase (c : Byte) : Byte := if 0x41 ≤ c.toNat ∧ c.toNat ≤ 0x46 then c + 0x20 else c

end Machine

end Sys2Proof
end

