-- ==== Sys2Proof/Certificates/Slice0/Obligations.lean ====
section
/-! DEFINITION. The statements for the provers, from the numbered rules of spec/. -/

open Sys2Proof Sys2Proof.Machine

/-! ### Encoding -/

/-- Decoding an encoded command gives it back: no bit of an operand is dropped (R61, R62, R65). -/
def Obligations.DecodeEncode : Prop := ∀ i : Instr, decode (encode i) = .ok i

/-- Each word has at most one meaning and no spare spelling: a word that decodes is the encoding of what it decodes to
(R62, R66). -/
def Obligations.EncodeDecode : Prop := ∀ (c : Word) (i : Instr), decode c = .ok i → encode i = c

/-- R62: the decoder gives a command for exactly the words `c` with `c & mask = match` of one of the fifteen rows, with the
fields of that row (R65); no word spells two rows. -/
def Obligations.OpcodeMap : Prop :=
  (∀ (c : Word) (i : Instr), decode c = .ok i ↔ ∃ r ∈ commandRows, c &&& r.mask = r.pattern ∧ r.build c = i) ∧
  (∀ c : Word, ∀ r ∈ commandRows, ∀ r' ∈ commandRows, c &&& r.mask = r.pattern → c &&& r'.mask = r'.pattern →
    r.pattern = r'.pattern)

/-- The spec's own examples of words (R68 and 95_test_vectors.md), one or more of each family. -/
def Obligations.SampleWords : Prop :=
  decode 0x11000000 = .ok (.create 1) ∧ decode 0x30500000 = .ok (.get 5) ∧ decode 0x43008000 = .ok (.set 3 true) ∧
  decode 0x80230000 = .ok (.equals 2 3) ∧ decode 0x90100000 = .ok (.copy 0 1) ∧ decode 0xA0000000 = .ok (.not 0) ∧
  decode 0xB2010000 = .ok (.and 2 0 1) ∧ decode 0xF0200000 = .ok (.tohex 2)

/-- R63: a word is illegal when (a) its OP is 0, (b) it differs from the match of its OP's row under the row's mask, or (c)
a slot field its command uses is NSLOT or more. It ends with ILLEGAL_COMMAND (6) and makes no other change; CC counts it
(R30). -/
def Obligations.IllegalWord : Prop :=
  ∀ (c : Word) (s : State),
    ((c.extractLsb' 28 4 = 0 ∨
      (∃ r ∈ commandRows, r.pattern.extractLsb' 28 4 = c.extractLsb' 28 4 ∧ c &&& r.mask ≠ r.pattern) ∨
      (∃ i, decode c = .ok i ∧ ∃ a ∈ i.slots, s.params.nslot ≤ a.toNat)) →
      performCommand c s = .next { s with cc := s.cc + 1, code := 6, sticky := true })

/-! ### The step, host accesses and reset -/

/-- A step runs the decoded command: when the host's next access writes `c` to CMD and `c` decodes to `i`, the step is exec
of `i` with that access taken and CC advanced (R23, R30, R64). -/
def Obligations.StepRunsCommand : Prop :=
  ∀ (s : State) (c : Word) (rest : List Input) (i : Instr),
    s.inReset = false → s.pending = .write 32 0 c :: rest → decode c = .ok i →
      step s = exec i { s with pending := rest, cc := s.cc + 1 }

/-- One input a step, in order of arrival; with none to come the block holds its state; while reset is not applied, a host
read that arrives is performed as HostRead and a host write as HostWrite, with that access taken (R20, R42, R53, R140; that
the inputs stand in a list and that a step may find none are the model's choice, log 2 and log 3). -/
def Obligations.StepTakesOneInput : Prop :=
  (∀ s : State, s.pending = [] → step s = .next s) ∧
  (∀ s t : State, step s = .next t → t.pending = s.pending.tail) ∧
  (∀ (s : State) (rest : List Input) (w : Nat) (off : Offset), s.inReset = false → s.pending = .read w off :: rest →
    step s = hostRead w off { s with pending := rest }) ∧
  (∀ (s : State) (rest : List Input) (w : Nat) (off : Offset) (v : Word), s.inReset = false →
    s.pending = .write w off v :: rest → step s = hostWrite w off v { s with pending := rest })

/-- R42: what HostWrite and HostRead do at each offset they allow, on a block with legal parameters. A read of a SIN or SOUT
cell that has been written gives what was written last, zero-extended; `sinChar` and `soutChar` say the same of a cell that
has not, whose byte is free (R36, log 6). The value a read returns stands in `readData` (log 4). -/
def Obligations.HostPrimitives : Prop :=
  ∀ (s : State) (v : Word), s.params.wf = true →
    hostWrite 32 0x000000 v s = performCommand v s ∧
    hostWrite 32 0x000004 v s = .next { s with arg := v } ∧
    hostWrite 32 0x000010 v s = .next { s with sinlen := v } ∧
    hostRead 32 0x000004 s = .next { s with readData := some s.arg } ∧
    hostRead 32 0x000008 s = .next { s with readData := some s.result } ∧
    hostRead 32 0x00000C s = .next { s with readData := some (BitVec.ofNat 32 (256 * s.sticky.toNat + s.code.toNat)) } ∧
    hostRead 32 0x000010 s = .next { s with readData := some s.sinlen } ∧
    hostRead 32 0x000014 s = .next { s with readData := some s.soutlen } ∧
    hostRead 32 0x000018 s =
      .next { s with readData := some (BitVec.ofNat 32 (65536 * s.params.maxw + s.params.nslot)) } ∧
    (∀ j < 8 * s.params.maxw,
      hostRead 32 (BitVec.ofNat 24 (0x400000 + 4 * j)) s = .next { s with readData := some ((s.sinChar j).setWidth 32) } ∧
      (∀ c, s.sin.read? j = some c →
        hostRead 32 (BitVec.ofNat 24 (0x400000 + 4 * j)) s = .next { s with readData := some (c.setWidth 32) }) ∧
      ∃ t, hostWrite 32 (BitVec.ofNat 24 (0x400000 + 4 * j)) v s = .next t ∧ t = { s with sin := t.sin } ∧
        ∀ k, t.sin.read? k = if k = j then some (v.extractLsb' 0 8) else s.sin.read? k) ∧
    (∀ j < 32 * s.params.maxw,
      hostRead 32 (BitVec.ofNat 24 (0x800000 + 4 * j)) s = .next { s with readData := some ((s.soutChar j).setWidth 32) } ∧
      (∀ c, s.sout.read? j = some c →
        hostRead 32 (BitVec.ofNat 24 (0x800000 + 4 * j)) s = .next { s with readData := some (c.setWidth 32) })) ∧
    (∀ (w : Nat) (off : Offset),
      (¬ WriteAllowed s.params w off → ∃ e, hostWrite w off v s = .fault (.busError e off)) ∧
      (¬ ReadAllowed s.params w off → ∃ e, hostRead w off s = .fault (.busError e off)))

/-- R44, R49: an access is a bus error exactly when it is not allowed; a write that is allowed and is not to CMD, and every
read that is allowed, completes. -/
def Obligations.BusErrors : Prop :=
  ∀ (s : State) (w : Nat) (off : Offset) (v : Word),
    (¬ ReadAllowed s.params w off → ∃ e, hostRead w off s = .fault (.busError e off)) ∧
    (ReadAllowed s.params w off → ∃ t, hostRead w off s = .next t) ∧
    (¬ WriteAllowed s.params w off → ∃ e, hostWrite w off v s = .fault (.busError e off)) ∧
    (WriteAllowed s.params w off → off ≠ 0 → ∃ t, hostWrite w off v s = .next t)

/-- R50(c): a read changes nothing but what the host has read, and read again it gives the same value. -/
def Obligations.ReadsHaveNoSideEffect : Prop :=
  ∀ (s t : State) (w : Nat) (off : Offset), hostRead w off s = .next t →
    t = { s with readData := t.readData } ∧ hostRead w off t = .next t

/-- R50(d): a write to ARG, SINLEN or a SIN cell, done again, changes nothing more. -/
def Obligations.WritesAreIdempotent : Prop :=
  ∀ (s t : State) (w : Nat) (off : Offset) (v : Word), off ≠ 0 → hostWrite w off v s = .next t →
    hostWrite w off v t = .next t

/-- R36, R150, R151: what reset leaves, for any parameters: no slot valid, every host register 0, no SIN, SOUT or storage cell
with a known value, CC 0, and reset released. -/
def Obligations.ResetValues : Prop :=
  (∀ (p : Params) (a : SlotNo),
    let s := State.resetWith p
    (s.slot a).valid = false ∧ s.arg = 0 ∧ s.result = 0 ∧ s.code = 0 ∧ s.sticky = false ∧ s.sinlen = 0 ∧
    s.soutlen = 0 ∧ s.cc = 0 ∧ s.params = p ∧ s.inReset = false ∧
    ∀ j, s.sin.read? j = none ∧ s.sout.read? j = none ∧ (s.slot a).words.read? j = none) ∧
  ∃ p : Params, p.wf = true ∧ State.reset = State.resetWith p

/-- R150: applying reset sets every piece of the block's state to its reset value and holds it there; an access that arrives
while reset is applied has no effect; releasing reset changes nothing else; and no access ever applies or releases reset.
Not rules but the model's choices: that reset is applied and released by two inputs, what releasing does, and that a read
meanwhile gives the host no new value (log 5); that the reset state has LEN 0 in every slot (log 8). -/
def Obligations.ResetInput : Prop :=
  ∀ (s : State) (rest : List Input),
    (s.pending = .applyReset :: rest → ∃ t, step s = .next t ∧ t.inReset = true ∧
      t = { State.resetWith s.params with
            inReset := true, pending := rest, readData := s.readData, resets := t.resets }) ∧
    (∀ x, s.inReset = true → s.pending = x :: rest → x ≠ .applyReset → x ≠ .releaseReset →
      step s = .next { s with pending := rest }) ∧
    (s.pending = .releaseReset :: rest → step s = .next { s with pending := rest, inReset := false }) ∧
    (∀ x t, s.pending = x :: rest → x ≠ .applyReset → x ≠ .releaseReset → step s = .next t →
      t.inReset = s.inReset ∧ t.resets = s.resets)

/-- R70, R53: the accesses of a `SEED "t"` line, performed one a step in their order, leave the characters of `t` in
SIN[0 .. m-1] and `m` in SINLEN, every other cell as it was, and nothing else changed. -/
def Obligations.SeedLine : Prop :=
  ∀ (s : State) (t : List Byte) (rest : List Input),
    s.params.wf = true → s.inReset = false → t.length ≤ 8 * s.params.maxw →
    s.pending = (Line.seed t).inputs ++ rest →
      ∃ u : State, Sys2Proof.core.run (t.length + 1) s = .next u ∧
        u = { s with pending := rest, sinlen := BitVec.ofNat 32 t.length, sin := u.sin } ∧
        ∀ j, u.sin.read? j = if h : j < t.length then some t[j] else s.sin.read? j

/-- R31: CONFIG reads as NSLOT in bits 7:0, zero in bits 15:8 and MAXW in bits 31:16, a write to it is a bus error, and no
step changes it. -/
def Obligations.ConfigConstant : Prop :=
  (∀ s t : State, step s = .next t → t.params = s.params) ∧
  (∀ (s : State) (w : Nat) (v : Word), ∃ e, hostWrite w 0x000018 v s = .fault (.busError e 0x000018)) ∧
  (∀ s : State, s.params.wf = true → ∃ c : Word, hostRead 32 0x000018 s = .next { s with readData := some c } ∧
    (c.extractLsb' 0 8).toNat = s.params.nslot ∧ c.extractLsb' 8 8 = 0 ∧ (c.extractLsb' 16 16).toNat = s.params.maxw)

/-- R26, R134: once STICKY is set only reset clears it. -/
def Obligations.StickyUntilReset : Prop :=
  ∀ s t : State, step s = .next t → s.sticky = true → s.pending.head? ≠ some .applyReset → t.sticky = true

/-- Which events stop the machine: a host access that R43, R44 and R49 do not allow, or a CREATEH whose seed has a cell the
host has not written since reset (R36). The step never refuses. -/
def Obligations.WhatStopsAStep : Prop :=
  (∀ (s : State) (r : Refusal), step s ≠ .refused r) ∧
  (∀ (s : State) (f : Fault), step s = .fault f → s.inReset = false ∧ ∃ rest,
    (∃ w off e, s.pending = .read w off :: rest ∧ f = .busError e off ∧ ¬ ReadAllowed s.params w off) ∨
    (∃ w off v e, s.pending = .write w off v :: rest ∧ f = .busError e off ∧ ¬ WriteAllowed s.params w off) ∨
    (∃ c d j, s.pending = .write 32 0 c :: rest ∧ decode c = .ok (.createh d) ∧ f = .sinUnwritten j ∧
      j < s.sinlen.toNat ∧ s.sin.read? j = none))

/-! ### The invariant -/

/-- Every step keeps the invariant: legal parameters, slots in order (R21, R22), a legal CODE and its STICKY (R26), RESULT
and SOUTLEN in bounds (R25, R120), memories in canonical form and in bounds (R21, R29), the reset state held while reset is
applied (R150; LEN 0 in it is the model's choice, log 8). -/
def Obligations.StepKeepsInv : Prop := ∀ s t : State, s.Inv → step s = .next t → t.Inv

/-- The invariant holds right after reset, for every legal choice of parameters and for the one of State.reset. -/
def Obligations.ResetInv : Prop := (∀ p : Params, p.wf = true → (State.resetWith p).Inv) ∧ State.reset.Inv

/-! ### What every command keeps -/

/-- No command writes CONFIG, ARG, SINLEN or SIN (R24, R27, R29, R31), nor CC, which the CMD write advances, nor anything
outside the block. -/
def Obligations.CommandsKeepOperands : Prop :=
  ∀ (i : Instr) (s t : State), exec i s = .next t →
    t = { s with
          slots := t.slots, result := t.result, code := t.code, sticky := t.sticky, soutlen := t.soutlen,
          sout := t.sout }

/-- R133: a command that ends in an error leaves the state as it was, but for CODE, which is the error's (1 .. 7), STICKY,
which is 1, and CC, which has advanced. -/
def Obligations.ErrorsArePrecise : Prop :=
  ∀ (c : Word) (s t : State), performCommand c s = .next t → t.code ≠ 0 →
    t.code.toNat ≤ 7 ∧ t = { s with cc := s.cc + 1, code := t.code, sticky := true }

/-- R26, R30, R64: a command that succeeds leaves STICKY alone, and CC counts every command, successful or not. -/
def Obligations.StatusAndCounter : Prop :=
  ∀ (c : Word) (s t : State), performCommand c s = .next t →
    t.cc = s.cc + 1 ∧ t.code.toNat ≤ 7 ∧ (t.code = 0 → t.sticky = s.sticky) ∧ (t.code ≠ 0 → t.sticky = true)

/-- R131, R132: a command reports the first error of its list (Instr.errors) whose condition (Instr.Raises) holds and makes no
other change, and where none holds it succeeds, so it can raise no other error. For a CREATEH the seed is one the host has
written since reset (R36). -/
def Obligations.FirstError : Prop :=
  ∀ (i : Instr) (s : State),
    (∀ d, i = .createh d → ∀ j < s.sinlen.toNat, (s.sin.read? j).isSome = true) →
    (∀ (before after : List Nat) (c : Nat), i.errors = before ++ c :: after → (∀ c' ∈ before, ¬ i.Raises s c') →
      i.Raises s c → exec i s = .next { s with code := BitVec.ofNat 4 c, sticky := true }) ∧
    ((∀ c ∈ i.errors, ¬ i.Raises s c) → ∃ t, exec i s = .next t ∧ t.code = 0 ∧ t.sticky = s.sticky)

/-- R25: only GET, SIZE, COUNT and EQUALS write RESULT. -/
def Obligations.ResultWriters : Prop :=
  ∀ (i : Instr) (s t : State), exec i s = .next t →
    (∀ a, i ≠ .get a) → (∀ a, i ≠ .size a) → (∀ a, i ≠ .count a) → (∀ a b, i ≠ .equals a b) → t.result = s.result

/-- R28, R29: only TOBIN and TOHEX write SOUT and SOUTLEN. -/
def Obligations.TextWriters : Prop :=
  ∀ (i : Instr) (s t : State), exec i s = .next t → (∀ a, i ≠ .tobin a) → (∀ a, i ≠ .tohex a) →
    t.sout = s.sout ∧ t.soutlen = s.soutlen

/-- R22(c), R32: a command writes no slot but the one its D field names; SET, TOGGLE and NOT keep its capacity and VALID; two
slots never share storage. -/
def Obligations.SlotWriters : Prop :=
  ∀ (i : Instr) (s t : State), exec i s = .next t →
    (∀ a, i.target ≠ some a → t.slot a = s.slot a) ∧
    (∀ d, (∃ v, i = .set d v) ∨ i = .toggle d ∨ i = .not d →
      (t.slot d).len = (s.slot d).len ∧ (t.slot d).valid = (s.slot d).valid)

/-! ### Construction -/

/-- R80: roundcap gives the least multiple of 32 that is not below the request, exactly; a result greater than MAXBITS is
an error of CREATE and CREATEH, never wrapped or clamped. -/
def Obligations.CapacityRounding : Prop :=
  (∀ r : Nat, roundcap r % 32 = 0 ∧ r ≤ roundcap r ∧ roundcap r < r + 32) ∧
  roundcap 0 = 0 ∧ roundcap 1 = 32 ∧ roundcap 32 = 32 ∧ roundcap 33 = 64 ∧ roundcap (2 ^ 32 - 1) = 2 ^ 32 ∧
  ∀ (s : State) (d : SlotNo), d.toNat < s.params.nslot → 32 * s.params.maxw < roundcap s.arg.toNat →
    exec (.create d) s = .next { s with code := 5, sticky := true } ∧
    exec (.createh d) s = .next { s with code := 5, sticky := true }

/-- R81, CREATE: encoding; on success slot D is a valid all-zero array of the rounded capacity and nothing else changes but
CODE; CAPACITY_LIMIT (5) and ILLEGAL_COMMAND (6).
That words beyond the array keep their values is the model's choice (log 9), not a rule's. -/
def Obligations.CreateEffect : Prop :=
  Spells 0x10000000 0xF0FFFFFF (fun c => .create (c.extractLsb' 24 4)) ∧
  ∀ (s : State) (d : SlotNo),
    (d.toNat < s.params.nslot → roundcap s.arg.toNat ≤ 32 * s.params.maxw →
      ∃ t, exec (.create d) s = .next t ∧ s.ChangesOnlySlot d t ∧
        (t.slot d).valid = true ∧ (t.slot d).len = roundcap s.arg.toNat ∧
        ∀ q, t.word d q = if q < roundcap s.arg.toNat / 32 then 0 else s.word d q) ∧
    (d.toNat < s.params.nslot → 32 * s.params.maxw < roundcap s.arg.toNat →
      exec (.create d) s = .next { s with code := 5, sticky := true }) ∧
    (s.params.nslot ≤ d.toNat → exec (.create d) s = .next { s with code := 6, sticky := true })

/-- R84 with R83, CREATEH: encoding; on success slot D is a valid array of the rounded capacity in which nibble `k` of the
left-padded seed fills array bits 4k .. 4k+3, most significant first, and nothing else changes but CODE. The errors in their
order (R132), each changing nothing but STATUS: ILLEGAL_COMMAND (6), CAPACITY_LIMIT (5), SEED_OVERFLOW (2),
MALFORMED_HEX_INPUT (4).
That words beyond the array keep their values is the model's choice (log 9), not a rule's. -/
def Obligations.CreatehEffect : Prop :=
  Spells 0x20000000 0xF0FFFFFF (fun c => .createh (c.extractLsb' 24 4)) ∧
  ∀ (s : State) (d : SlotNo),
    (∀ t : Nat → Byte, d.toNat < s.params.nslot → roundcap s.arg.toNat ≤ 32 * s.params.maxw →
      4 * s.sinlen.toNat ≤ roundcap s.arg.toNat →
      (∀ j < s.sinlen.toNat, s.sin.read? j = some (t j) ∧ isHexDigit (t j) = true) →
        ∃ u, exec (.createh d) s = .next u ∧ s.ChangesOnlySlot d u ∧
          (u.slot d).valid = true ∧ (u.slot d).len = roundcap s.arg.toNat ∧
          (∀ k < roundcap s.arg.toNat / 4, ∀ b < 4,
            u.bit d (4 * k + b) =
              if k < roundcap s.arg.toNat / 4 - s.sinlen.toNat then false
              else (hexval (t (k - (roundcap s.arg.toNat / 4 - s.sinlen.toNat)))).testBit (3 - b)) ∧
          (∀ q, roundcap s.arg.toNat / 32 ≤ q → u.word d q = s.word d q)) ∧
    (s.params.nslot ≤ d.toNat → exec (.createh d) s = .next { s with code := 6, sticky := true }) ∧
    (d.toNat < s.params.nslot → 32 * s.params.maxw < roundcap s.arg.toNat →
      exec (.createh d) s = .next { s with code := 5, sticky := true }) ∧
    (d.toNat < s.params.nslot → roundcap s.arg.toNat ≤ 32 * s.params.maxw →
      roundcap s.arg.toNat < 4 * s.sinlen.toNat →
      exec (.createh d) s = .next { s with code := 2, sticky := true }) ∧
    (d.toNat < s.params.nslot → roundcap s.arg.toNat ≤ 32 * s.params.maxw →
      4 * s.sinlen.toNat ≤ roundcap s.arg.toNat → (∀ j < s.sinlen.toNat, (s.sin.read? j).isSome = true) →
      (∃ j < s.sinlen.toNat, ∃ c, s.sin.read? j = some c ∧ isHexDigit c = false) →
      exec (.createh d) s = .next { s with code := 4, sticky := true })

/-- R85: the seed overflows exactly when `4 * SINLEN` exceeds the rounded capacity, whatever SIN holds. -/
def Obligations.SeedOverflow : Prop :=
  ∀ (s : State) (d : SlotNo), d.toNat < s.params.nslot → roundcap s.arg.toNat ≤ 32 * s.params.maxw →
    (4 * s.sinlen.toNat > roundcap s.arg.toNat →
      exec (.createh d) s = .next { s with code := 2, sticky := true }) ∧
    (4 * s.sinlen.toNat ≤ roundcap s.arg.toNat → ∀ t, exec (.createh d) s = .next t → t.code ≠ 2)

/-- R36, I5: a CREATEH that reads a SIN cell the host has not written since reset is a model fault that names the cell; of
several, the first (the model's choice, log 7). -/
def Obligations.CreatehUnwrittenCell : Prop :=
  ∀ (s : State) (d : SlotNo) (j : Nat),
    d.toNat < s.params.nslot → roundcap s.arg.toNat ≤ 32 * s.params.maxw → 4 * s.sinlen.toNat ≤ roundcap s.arg.toNat →
    j < s.sinlen.toNat → s.sin.read? j = none → (∀ k < j, (s.sin.read? k).isSome = true) →
      exec (.createh d) s = .fault (.sinUnwritten j)

/-- R84, corner case: with the empty seed CREATEH is CREATE. -/
def Obligations.EmptySeed : Prop :=
  ∀ (s : State) (d : SlotNo), s.sinlen = 0 → exec (.createh d) s = exec (.create d) s

/-- R82 and R14: the 22 hex digits are exactly the characters the decoder accepts, upper and lower case have the same value,
and the encoder's digit of a value is the lower-case one. The codes are ASCII (log 12). -/
def Obligations.HexDigits : Prop :=
  (∀ c : Byte, isHexDigit c = true ↔
    (0x30 ≤ c.toNat ∧ c.toNat ≤ 0x39) ∨ (0x41 ≤ c.toNat ∧ c.toNat ≤ 0x46) ∨ (0x61 ≤ c.toNat ∧ c.toNat ≤ 0x66)) ∧
  (∀ n < 10, hexval (BitVec.ofNat 8 (0x30 + n)) = n ∧ hexchar n = BitVec.ofNat 8 (0x30 + n)) ∧
  (∀ n < 6, hexval (BitVec.ofNat 8 (0x41 + n)) = 10 + n ∧ hexval (BitVec.ofNat 8 (0x61 + n)) = 10 + n ∧
    hexchar (10 + n) = BitVec.ofNat 8 (0x61 + n))

/-! ### The mapper and bit access -/

/-- R90: the mapper's outputs for bit index `i` and capacity `len`; the mask has one bit, of weight 31 - offset, and picks
the array bit at `i`; an index in range of a capacity that is a multiple of 32 falls in a word of the array. -/
def Obligations.Mapper : Prop :=
  ∀ (i : Word) (len : Nat),
    ((mapIndex i len).inRange = true ↔ i.toNat < len) ∧
    (mapIndex i len).wordIndex = i.toNat / 32 ∧ (mapIndex i len).wordIndex = (i.extractLsb' 5 27).toNat ∧
    (mapIndex i len).offset = i.toNat % 32 ∧ (mapIndex i len).offset = (i.extractLsb' 0 5).toNat ∧
    (mapIndex i len).mask = 1#32 <<< (31 - i.toNat % 32) ∧ (mapIndex i len).mask = 0x80000000#32 >>> (i.toNat % 32) ∧
    (∀ (s : State) (a : SlotNo),
      s.word a (mapIndex i len).wordIndex &&& (mapIndex i len).mask ≠ 0 ↔ s.bit a i.toNat = true) ∧
    (len % 32 = 0 → (mapIndex i len).inRange = true → (mapIndex i len).wordIndex < len / 32)

/-- R92, GET: encoding; on success RESULT is the array bit and nothing else changes but CODE; INDEX_OUT_OF_RANGE (1),
SLOT_UNALLOCATED (7), ILLEGAL_COMMAND (6). -/
def Obligations.GetEffect : Prop :=
  Spells 0x30000000 0xFF0FFFFF (fun c => .get (c.extractLsb' 20 4)) ∧
  ∀ (s : State) (a : SlotNo),
    (a.toNat < s.params.nslot → (s.slot a).valid = true → s.arg.toNat < (s.slot a).len →
      exec (.get a) s = .next { s with result := if s.bit a s.arg.toNat then 1 else 0, code := 0 }) ∧
    (a.toNat < s.params.nslot → (s.slot a).valid = true → (s.slot a).len ≤ s.arg.toNat →
      exec (.get a) s = .next { s with code := 1, sticky := true }) ∧
    (a.toNat < s.params.nslot → (s.slot a).valid = false →
      exec (.get a) s = .next { s with code := 7, sticky := true }) ∧
    (s.params.nslot ≤ a.toNat → exec (.get a) s = .next { s with code := 6, sticky := true })

/-- R93, SET: encoding; on success the array bit ARG of slot D is V, every other bit of every slot is as before, and nothing
else changes but CODE; the errors as for GET. -/
def Obligations.SetEffect : Prop :=
  Spells 0x40000000 0xF0FF7FFF (fun c => .set (c.extractLsb' 24 4) (c.getLsbD 15)) ∧
  ∀ (s : State) (d : SlotNo) (v : Bool),
    (d.toNat < s.params.nslot → (s.slot d).valid = true → s.arg.toNat < (s.slot d).len →
      ∃ t, exec (.set d v) s = .next t ∧ s.ChangesOnlySlot d t ∧
        (t.slot d).valid = true ∧ (t.slot d).len = (s.slot d).len ∧
        ∀ i, t.bit d i = if i = s.arg.toNat then v else s.bit d i) ∧
    (d.toNat < s.params.nslot → (s.slot d).valid = true → (s.slot d).len ≤ s.arg.toNat →
      exec (.set d v) s = .next { s with code := 1, sticky := true }) ∧
    (d.toNat < s.params.nslot → (s.slot d).valid = false →
      exec (.set d v) s = .next { s with code := 7, sticky := true }) ∧
    (s.params.nslot ≤ d.toNat → exec (.set d v) s = .next { s with code := 6, sticky := true })

/-- R94, TOGGLE: encoding; on success the array bit ARG of slot D is inverted, every other bit of every slot is as before, and
nothing else changes but CODE; the errors as for GET. -/
def Obligations.ToggleEffect : Prop :=
  Spells 0x50000000 0xF0FFFFFF (fun c => .toggle (c.extractLsb' 24 4)) ∧
  ∀ (s : State) (d : SlotNo),
    (d.toNat < s.params.nslot → (s.slot d).valid = true → s.arg.toNat < (s.slot d).len →
      ∃ t, exec (.toggle d) s = .next t ∧ s.ChangesOnlySlot d t ∧
        (t.slot d).valid = true ∧ (t.slot d).len = (s.slot d).len ∧
        ∀ i, t.bit d i = if i = s.arg.toNat then !s.bit d i else s.bit d i) ∧
    (d.toNat < s.params.nslot → (s.slot d).valid = true → (s.slot d).len ≤ s.arg.toNat →
      exec (.toggle d) s = .next { s with code := 1, sticky := true }) ∧
    (d.toNat < s.params.nslot → (s.slot d).valid = false →
      exec (.toggle d) s = .next { s with code := 7, sticky := true }) ∧
    (s.params.nslot ≤ d.toNat → exec (.toggle d) s = .next { s with code := 6, sticky := true })

/-- R91: for GET, SET and TOGGLE on a slot that exists and is valid, an index is legal exactly when it is below LEN: then the
command succeeds, and otherwise it reports INDEX_OUT_OF_RANGE (1) and changes nothing else. -/
def Obligations.RangeCheck : Prop :=
  ∀ (s : State) (a : SlotNo) (i : Instr), (i = .get a ∨ (∃ v, i = .set a v) ∨ i = .toggle a) →
    a.toNat < s.params.nslot → (s.slot a).valid = true →
      ((∃ t, exec i s = .next t ∧ t.code = 0) ↔ s.arg.toNat < (s.slot a).len) ∧
      (¬ s.arg.toNat < (s.slot a).len → exec i s = .next { s with code := 1, sticky := true })

/-- R95(a), (b): GET after SET at the same index gives V, and TOGGLE twice restores every bit. -/
def Obligations.BitLaws : Prop :=
  ∀ (s : State) (d : SlotNo), d.toNat < s.params.nslot → (s.slot d).valid = true → s.arg.toNat < (s.slot d).len →
    (∀ v, ∃ t u, exec (.set d v) s = .next t ∧ exec (.get d) t = .next u ∧ u.result = if v then 1 else 0) ∧
    (∃ t u, exec (.toggle d) s = .next t ∧ exec (.toggle d) t = .next u ∧ ∀ a i, u.bit a i = s.bit a i)

/-! ### Queries and copy -/

/-- R100, SIZE: encoding; RESULT is LEN and nothing else changes but CODE; SLOT_UNALLOCATED (7), ILLEGAL_COMMAND (6). -/
def Obligations.SizeEffect : Prop :=
  Spells 0x60000000 0xFF0FFFFF (fun c => .size (c.extractLsb' 20 4)) ∧
  ∀ (s : State) (a : SlotNo),
    (a.toNat < s.params.nslot → (s.slot a).valid = true →
      exec (.size a) s = .next { s with result := BitVec.ofNat 32 (s.slot a).len, code := 0 }) ∧
    (a.toNat < s.params.nslot → (s.slot a).valid = false →
      exec (.size a) s = .next { s with code := 7, sticky := true }) ∧
    (s.params.nslot ≤ a.toNat → exec (.size a) s = .next { s with code := 6, sticky := true })

/-- R101, COUNT: encoding; RESULT is the number of array bits that are 1, over every word of the array and no other, and
nothing else changes but CODE; SLOT_UNALLOCATED (7), ILLEGAL_COMMAND (6). -/
def Obligations.CountEffect : Prop :=
  Spells 0x70000000 0xFF0FFFFF (fun c => .count (c.extractLsb' 20 4)) ∧
  ∀ (s : State) (a : SlotNo),
    (a.toNat < s.params.nslot → (s.slot a).valid = true →
      exec (.count a) s = .next { s with
        result := BitVec.ofNat 32 ((List.range (32 * ((s.slot a).len / 32))).countP fun i => s.bit a i), code := 0 }) ∧
    (a.toNat < s.params.nslot → (s.slot a).valid = false →
      exec (.count a) s = .next { s with code := 7, sticky := true }) ∧
    (s.params.nslot ≤ a.toNat → exec (.count a) s = .next { s with code := 6, sticky := true })

/-- R102, EQUALS: encoding; RESULT is 1 when both slots have one capacity and equal words, else 0, and nothing else changes
but CODE; SLOT_UNALLOCATED (7), ILLEGAL_COMMAND (6). -/
def Obligations.EqualsEffect : Prop :=
  Spells 0x80000000 0xFF00FFFF (fun c => .equals (c.extractLsb' 20 4) (c.extractLsb' 16 4)) ∧
  ∀ (s : State) (a b : SlotNo),
    (a.toNat < s.params.nslot → b.toNat < s.params.nslot → (s.slot a).valid = true → (s.slot b).valid = true →
      ((s.slot a).len = (s.slot b).len → (∀ q < (s.slot a).len / 32, s.word a q = s.word b q) →
        exec (.equals a b) s = .next { s with result := 1, code := 0 }) ∧
      ((s.slot a).len = (s.slot b).len → (∃ q < (s.slot a).len / 32, s.word a q ≠ s.word b q) →
        exec (.equals a b) s = .next { s with result := 0, code := 0 }) ∧
      ((s.slot a).len ≠ (s.slot b).len → exec (.equals a b) s = .next { s with result := 0, code := 0 })) ∧
    (a.toNat < s.params.nslot → b.toNat < s.params.nslot → ((s.slot a).valid = false ∨ (s.slot b).valid = false) →
      exec (.equals a b) s = .next { s with code := 7, sticky := true }) ∧
    ((s.params.nslot ≤ a.toNat ∨ s.params.nslot ≤ b.toNat) →
      exec (.equals a b) s = .next { s with code := 6, sticky := true })

/-- R103, COPY: encoding; slot D becomes a valid array with slot A's capacity and words, whatever slot D held, and nothing
else changes but CODE; SLOT_UNALLOCATED (7) for slot A only, ILLEGAL_COMMAND (6).
That words beyond the array keep their values is the model's choice (log 9), not a rule's. -/
def Obligations.CopyEffect : Prop :=
  Spells 0x90000000 0xF00FFFFF (fun c => .copy (c.extractLsb' 24 4) (c.extractLsb' 20 4)) ∧
  ∀ (s : State) (d a : SlotNo),
    (d.toNat < s.params.nslot → a.toNat < s.params.nslot → (s.slot a).valid = true →
      ∃ t, exec (.copy d a) s = .next t ∧ s.ChangesOnlySlot d t ∧
        (t.slot d).valid = true ∧ (t.slot d).len = (s.slot a).len ∧
        ∀ q, t.word d q = if q < (s.slot a).len / 32 then s.word a q else s.word d q) ∧
    (d.toNat < s.params.nslot → a.toNat < s.params.nslot → (s.slot a).valid = false →
      exec (.copy d a) s = .next { s with code := 7, sticky := true }) ∧
    ((s.params.nslot ≤ d.toNat ∨ s.params.nslot ≤ a.toNat) →
      exec (.copy d a) s = .next { s with code := 6, sticky := true })

/-- R104(b), (c), (d): EQUALS of a slot with itself is 1; arrays of different capacity are never equal; after COPY, EQUALS of
the copy and the original is 1. -/
def Obligations.EqualityLaws : Prop :=
  ∀ (s : State) (d a : SlotNo), d.toNat < s.params.nslot → a.toNat < s.params.nslot → (s.slot a).valid = true →
    (∃ t, exec (.equals a a) s = .next t ∧ t.result = 1) ∧
    (∃ t u, exec (.copy d a) s = .next t ∧ exec (.equals d a) t = .next u ∧ u.result = 1) ∧
    ((s.slot d).valid = true → (s.slot d).len ≠ (s.slot a).len →
      ∃ t, exec (.equals d a) s = .next t ∧ t.result = 0 ∧ t.code = 0)

/-! ### Boolean algebra -/

/-- R110, NOT: encoding; every word of slot D's array is complemented in place, VALID and LEN stay, and nothing else changes
but CODE; SLOT_UNALLOCATED (7), ILLEGAL_COMMAND (6).
That words beyond the array keep their values is the model's choice (log 9), not a rule's. -/
def Obligations.NotEffect : Prop :=
  Spells 0xA0000000 0xF0FFFFFF (fun c => .not (c.extractLsb' 24 4)) ∧
  ∀ (s : State) (d : SlotNo),
    (d.toNat < s.params.nslot → (s.slot d).valid = true →
      ∃ t, exec (.not d) s = .next t ∧ s.ChangesOnlySlot d t ∧
        (t.slot d).valid = true ∧ (t.slot d).len = (s.slot d).len ∧
        ∀ q, t.word d q = if q < (s.slot d).len / 32 then s.word d q ^^^ 0xFFFFFFFF else s.word d q) ∧
    (d.toNat < s.params.nslot → (s.slot d).valid = false →
      exec (.not d) s = .next { s with code := 7, sticky := true }) ∧
    (s.params.nslot ≤ d.toNat → exec (.not d) s = .next { s with code := 6, sticky := true })

/-- R112 with R111, AND: encoding; slot D becomes a valid array with the operands' capacity whose words are the AND of theirs
as they were before, D being A or B or neither, and nothing else changes but CODE; CAPACITY_MISMATCH (3),
SLOT_UNALLOCATED (7), ILLEGAL_COMMAND (6).
That words beyond the array keep their values is the model's choice (log 9), not a rule's. -/
def Obligations.AndEffect : Prop :=
  Spells 0xB0000000 0xF000FFFF (fun c => .and (c.extractLsb' 24 4) (c.extractLsb' 20 4) (c.extractLsb' 16 4)) ∧
  ∀ (s : State) (d a b : SlotNo),
    ((∀ x ∈ [d, a, b], x.toNat < s.params.nslot) → (s.slot a).valid = true → (s.slot b).valid = true →
      ((s.slot a).len = (s.slot b).len →
        ∃ t, exec (.and d a b) s = .next t ∧ s.ChangesOnlySlot d t ∧
          (t.slot d).valid = true ∧ (t.slot d).len = (s.slot a).len ∧
          ∀ q, t.word d q = if q < (s.slot a).len / 32 then s.word a q &&& s.word b q else s.word d q) ∧
      ((s.slot a).len ≠ (s.slot b).len →
        exec (.and d a b) s = .next { s with code := 3, sticky := true })) ∧
    ((∀ x ∈ [d, a, b], x.toNat < s.params.nslot) → ((s.slot a).valid = false ∨ (s.slot b).valid = false) →
      exec (.and d a b) s = .next { s with code := 7, sticky := true }) ∧
    ((∃ x ∈ [d, a, b], s.params.nslot ≤ x.toNat) →
      exec (.and d a b) s = .next { s with code := 6, sticky := true })

/-- R113 with R111, OR: as Obligations.AndEffect, with the OR of the words.
That words beyond the array keep their values is the model's choice (log 9), not a rule's. -/
def Obligations.OrEffect : Prop :=
  Spells 0xC0000000 0xF000FFFF (fun c => .or (c.extractLsb' 24 4) (c.extractLsb' 20 4) (c.extractLsb' 16 4)) ∧
  ∀ (s : State) (d a b : SlotNo),
    ((∀ x ∈ [d, a, b], x.toNat < s.params.nslot) → (s.slot a).valid = true → (s.slot b).valid = true →
      ((s.slot a).len = (s.slot b).len →
        ∃ t, exec (.or d a b) s = .next t ∧ s.ChangesOnlySlot d t ∧
          (t.slot d).valid = true ∧ (t.slot d).len = (s.slot a).len ∧
          ∀ q, t.word d q = if q < (s.slot a).len / 32 then s.word a q ||| s.word b q else s.word d q) ∧
      ((s.slot a).len ≠ (s.slot b).len →
        exec (.or d a b) s = .next { s with code := 3, sticky := true })) ∧
    ((∀ x ∈ [d, a, b], x.toNat < s.params.nslot) → ((s.slot a).valid = false ∨ (s.slot b).valid = false) →
      exec (.or d a b) s = .next { s with code := 7, sticky := true }) ∧
    ((∃ x ∈ [d, a, b], s.params.nslot ≤ x.toNat) →
      exec (.or d a b) s = .next { s with code := 6, sticky := true })

/-- R114 with R111, XOR: as Obligations.AndEffect, with the XOR of the words.
That words beyond the array keep their values is the model's choice (log 9), not a rule's. -/
def Obligations.XorEffect : Prop :=
  Spells 0xD0000000 0xF000FFFF (fun c => .xor (c.extractLsb' 24 4) (c.extractLsb' 20 4) (c.extractLsb' 16 4)) ∧
  ∀ (s : State) (d a b : SlotNo),
    ((∀ x ∈ [d, a, b], x.toNat < s.params.nslot) → (s.slot a).valid = true → (s.slot b).valid = true →
      ((s.slot a).len = (s.slot b).len →
        ∃ t, exec (.xor d a b) s = .next t ∧ s.ChangesOnlySlot d t ∧
          (t.slot d).valid = true ∧ (t.slot d).len = (s.slot a).len ∧
          ∀ q, t.word d q = if q < (s.slot a).len / 32 then s.word a q ^^^ s.word b q else s.word d q) ∧
      ((s.slot a).len ≠ (s.slot b).len →
        exec (.xor d a b) s = .next { s with code := 3, sticky := true })) ∧
    ((∀ x ∈ [d, a, b], x.toNat < s.params.nslot) → ((s.slot a).valid = false ∨ (s.slot b).valid = false) →
      exec (.xor d a b) s = .next { s with code := 7, sticky := true }) ∧
    ((∃ x ∈ [d, a, b], s.params.nslot ≤ x.toNat) →
      exec (.xor d a b) s = .next { s with code := 6, sticky := true })

/-- R115: the boolean commands act on each array bit by itself, in the operands' bits as they were before; and XOR of a slot
with itself clears it (R114). -/
def Obligations.LaneSemantics : Prop :=
  ∀ (s : State) (d a b : SlotNo),
    (∀ x ∈ [d, a, b], x.toNat < s.params.nslot) → (s.slot a).valid = true → (s.slot b).valid = true →
    (s.slot a).len = (s.slot b).len →
      (∃ t, exec (.and d a b) s = .next t ∧
        ∀ i < 32 * ((s.slot a).len / 32), t.bit d i = (s.bit a i && s.bit b i)) ∧
      (∃ t, exec (.or d a b) s = .next t ∧
        ∀ i < 32 * ((s.slot a).len / 32), t.bit d i = (s.bit a i || s.bit b i)) ∧
      (∃ t, exec (.xor d a b) s = .next t ∧
        ∀ i < 32 * ((s.slot a).len / 32), t.bit d i = (s.bit a i ^^ s.bit b i)) ∧
      (∃ t, exec (.not a) s = .next t ∧
        ∀ i < 32 * ((s.slot a).len / 32), t.bit a i = !s.bit a i) ∧
      (∃ t, exec (.xor a a a) s = .next t ∧
        ∀ i < 32 * ((s.slot a).len / 32), t.bit a i = false)

/-! ### Encoders -/

/-- R121 with R120, TOBIN: encoding; SOUT[0 .. LEN-1] is the binary text, character `j` showing array bit `j`, cells from LEN
on keep their values, SOUTLEN is LEN, and nothing else changes but CODE; SLOT_UNALLOCATED (7), ILLEGAL_COMMAND (6). -/
def Obligations.TobinEffect : Prop :=
  Spells 0xE0000000 0xFF0FFFFF (fun c => .tobin (c.extractLsb' 20 4)) ∧
  ∀ (s : State) (a : SlotNo),
    (a.toNat < s.params.nslot → (s.slot a).valid = true →
      ∃ t, exec (.tobin a) s = .next t ∧ s.ChangesOnlyText t ∧ t.soutlen = BitVec.ofNat 32 (s.slot a).len ∧
        ∀ j, t.sout.read? j =
          if j < (s.slot a).len then some (if s.bit a j then 0x31 else 0x30) else s.sout.read? j) ∧
    (a.toNat < s.params.nslot → (s.slot a).valid = false →
      exec (.tobin a) s = .next { s with code := 7, sticky := true }) ∧
    (s.params.nslot ≤ a.toNat → exec (.tobin a) s = .next { s with code := 6, sticky := true })

/-- R122 with R120, TOHEX: encoding; SOUT[0 .. LEN/4-1] is the hex text, character `k` the lower-case digit of array bits
4k .. 4k+3 with bit 4k the most significant, cells from LEN/4 on keep their values, SOUTLEN is LEN/4, and nothing else
changes but CODE; SLOT_UNALLOCATED (7), ILLEGAL_COMMAND (6). -/
def Obligations.TohexEffect : Prop :=
  Spells 0xF0000000 0xFF0FFFFF (fun c => .tohex (c.extractLsb' 20 4)) ∧
  ∀ (s : State) (a : SlotNo),
    (a.toNat < s.params.nslot → (s.slot a).valid = true →
      ∃ t, exec (.tohex a) s = .next t ∧ s.ChangesOnlyText t ∧ t.soutlen = BitVec.ofNat 32 ((s.slot a).len / 4) ∧
        ∀ k, t.sout.read? k =
          if k < (s.slot a).len / 4 then
            some (hexchar (8 * (s.bit a (4 * k)).toNat + 4 * (s.bit a (4 * k + 1)).toNat +
              2 * (s.bit a (4 * k + 2)).toNat + (s.bit a (4 * k + 3)).toNat))
          else s.sout.read? k) ∧
    (a.toNat < s.params.nslot → (s.slot a).valid = false →
      exec (.tohex a) s = .next { s with code := 7, sticky := true }) ∧
    (s.params.nslot ≤ a.toNat → exec (.tohex a) s = .next { s with code := 6, sticky := true })

/-- R86, the round trip of the seed: after a CREATEH that succeeds, TOHEX of the slot writes the seed in lower case,
left-padded with '0' to the width L/4 of the rounded capacity. -/
def Obligations.SeedRoundTrip : Prop :=
  ∀ (s : State) (d : SlotNo) (t : Nat → Byte),
    d.toNat < s.params.nslot → roundcap s.arg.toNat ≤ 32 * s.params.maxw →
    4 * s.sinlen.toNat ≤ roundcap s.arg.toNat →
    (∀ j < s.sinlen.toNat, s.sin.read? j = some (t j) ∧ isHexDigit (t j) = true) →
      ∃ u w, exec (.createh d) s = .next u ∧ exec (.tohex d) u = .next w ∧
        w.soutlen = BitVec.ofNat 32 (roundcap s.arg.toNat / 4) ∧
        ∀ k < roundcap s.arg.toNat / 4,
          w.sout.read? k =
            some (if k < roundcap s.arg.toNat / 4 - s.sinlen.toNat then 0x30
              else lowercase (t (k - (roundcap s.arg.toNat / 4 - s.sinlen.toNat))))

/-- R123: the hex text of a slot, read back by the seed decoder at the same capacity, gives the slot's words again. -/
def Obligations.CodecAgrees : Prop :=
  ∀ (s : State) (a : SlotNo) (q : Nat), decodeWord 0 (s.hexChar a) q = s.word a q

/-- R104(a): the COUNT of a slot is the number of '1' characters in the text TOBIN writes of it. -/
def Obligations.CountIsOnesOfText : Prop :=
  ∀ (s : State) (a : SlotNo), a.toNat < s.params.nslot → (s.slot a).valid = true → (s.slot a).len % 32 = 0 →
    ∃ t u, exec (.tobin a) s = .next t ∧ exec (.count a) s = .next u ∧
      u.result = BitVec.ofNat 32
        ((List.range (s.slot a).len).countP fun j => decide (t.sout.read? j = some (0x31 : Byte)))
end

