-- ==== Sys2Proof/Laws/Decode.lean ====
section
/-! SUPPORT. The bits of an assembled command word (30_encoding.md R61). -/

namespace Sys2Proof

/-- The bits of a word by its fields, from RSV up to OP. -/
theorem assemble_getLsbD (op : BitVec 4) (d a b : SlotNo) (v : Bool) (i : Nat) :
    (assemble op d a b v).getLsbD i =
      if i < 15 then false
      else if i < 16 then v
      else if i < 20 then b.getLsbD (i - 16)
      else if i < 24 then a.getLsbD (i - 20)
      else if i < 28 then d.getLsbD (i - 24)
      else op.getLsbD (i - 28) := by
  have hv (j : Nat) (h : j < 1) : (BitVec.ofBool v).getLsbD j = v := by
    obtain rfl : j = 0 := by omega
    simp
  simp only [assemble, BitVec.getLsbD_append]
  by_cases h : i < 15
  · simp [h]
  by_cases h1 : i < 16
  · rw [if_neg h, if_pos (by omega), if_neg h, if_pos h1, hv _ (by omega)]
  by_cases h2 : i < 20
  · rw [if_neg h, if_neg (by omega), if_pos (by omega), if_neg h, if_neg h1, if_pos h2]; rfl
  by_cases h3 : i < 24
  · rw [if_neg h, if_neg (by omega), if_neg (by omega), if_pos (by omega), if_neg h, if_neg h1, if_neg h2, if_pos h3]
    congr 1
  by_cases h4 : i < 28
  · rw [if_neg h, if_neg (by omega), if_neg (by omega), if_neg (by omega), if_pos (by omega), if_neg h, if_neg h1,
      if_neg h2, if_neg h3, if_pos h4]
    congr 1
  · rw [if_neg h, if_neg (by omega), if_neg (by omega), if_neg (by omega), if_neg (by omega), if_neg h, if_neg h1,
      if_neg h2, if_neg h3, if_neg h4]
    congr 1

end Sys2Proof
end

