-- ==== Sys2Proof/Laws/Memory.lean ====
section
/-! SUPPORT. What memories do: a read after a write or a fill, and that both keep the canonical form and the bounds. -/

namespace Sys2Proof.Machine

variable {α : Type}

@[simp] theorem Memory.read?_nil (k : Nat) : Memory.read? ([] : Memory α) k = none := rfl

theorem Memory.read?_cons (j : Nat) (x : α) (m : Memory α) (k : Nat) :
    Memory.read? ((j, x) :: m) k = if j = k then some x else Memory.read? m k := rfl

/-- A read after a write: the cell written holds the value written, and every other cell what it held. -/
@[simp] theorem Memory.read?_write (m : Memory α) (k : Nat) (x : α) (i : Nat) :
    Memory.read? (Memory.write m k x) i = if i = k then some x else Memory.read? m i := by
  induction m with
  | nil => simp [Memory.write, Memory.read?_cons, eq_comm (a := i)]
  | cons c m ih =>
    obtain ⟨j, y⟩ := c
    by_cases h : k < j
    · simp [Memory.write, h, Memory.read?_cons, eq_comm (a := i)]
    · by_cases h' : k = j
      · subst h'; by_cases hi : i = k <;> simp [Memory.write, Memory.read?_cons, hi, eq_comm (a := k)]
      · simp only [Memory.write, h, h', if_false, Memory.read?_cons, ih]
        by_cases hi : i = k
        · simp [hi, Ne.symm h']
        · simp [hi]

/-- Writing the same value again changes nothing. -/
theorem Memory.write_write (m : Memory α) (k : Nat) (x : α) :
    Memory.write (Memory.write m k x) k x = Memory.write m k x := by
  induction m with
  | nil => simp [Memory.write]
  | cons c m ih =>
    obtain ⟨j, y⟩ := c
    by_cases h : k < j
    · simp [Memory.write, h]
    · by_cases h' : k = j
      · simp [Memory.write, h']
      · simp [Memory.write, h, h', ih]

theorem Memory.read?_append (m m' : Memory α) (k : Nat) :
    Memory.read? (m ++ m') k = (Memory.read? m k).or (Memory.read? m' k) := by
  induction m with
  | nil => simp
  | cons c m ih => obtain ⟨j, y⟩ := c; simp only [List.cons_append, Memory.read?_cons, ih]; split <;> simp

theorem Memory.read?_filter_ge (m : Memory α) (n k : Nat) (h : n ≤ k) :
    Memory.read? (m.filter fun c => n ≤ c.1) k = Memory.read? m k := by
  induction m with
  | nil => rfl
  | cons c m ih =>
    obtain ⟨j, y⟩ := c
    by_cases hj : n ≤ j
    · simp [hj, Memory.read?_cons, ih]
    · simp only [List.filter_cons, hj, decide_false, Bool.false_eq_true, if_false, ih, Memory.read?_cons]
      rw [if_neg (by omega)]

theorem Memory.read?_map_of_mem (l : List Nat) (f : Nat → α) (k : Nat) :
    Memory.read? (l.map fun i => (i, f i)) k = if k ∈ l then some (f k) else none := by
  induction l with
  | nil => simp
  | cons j l ih =>
    simp only [List.map_cons, Memory.read?_cons, ih, List.mem_cons]
    by_cases h : j = k
    · subst h; simp
    · simp [h, eq_comm (a := k)]

/-- A read after a fill: cells 0 .. n-1 hold what was filled in, and every other cell what it held. -/
@[simp] theorem Memory.read?_fill (m : Memory α) (n : Nat) (f : Nat → α) (k : Nat) :
    Memory.read? (Memory.fill m n f) k = if k < n then some (f k) else Memory.read? m k := by
  unfold Memory.fill
  rw [Memory.read?_append, Memory.read?_map_of_mem]
  by_cases h : k < n
  · simp [h]
  · simp [h, Memory.read?_filter_ge m n k (by omega)]

/-- Fills with functions that agree on the cells filled are equal. -/
theorem Memory.fill_congr (m : Memory α) (n : Nat) (f g : Nat → α) (h : ∀ k < n, f k = g k) :
    Memory.fill m n f = Memory.fill m n g := by
  unfold Memory.fill
  rw [List.map_congr_left fun k hk => by rw [h k (List.mem_range.mp hk)]]

/-- The canonical form as a statement about every two cells. -/
theorem Memory.wf_iff_pairwise (m : Memory α) :
    Memory.wf m = true ↔ m.Pairwise fun c c' => c.1 < c'.1 := by
  induction m with
  | nil => simp [Memory.wf]
  | cons c m ih =>
    cases m with
    | nil => simp [Memory.wf]
    | cons c' m =>
      simp only [Memory.wf, Bool.and_eq_true, decide_eq_true_eq, ih, List.pairwise_cons, List.mem_cons,
        forall_eq_or_imp]
      constructor
      · rintro ⟨h, h', h''⟩
        exact ⟨⟨h, fun x hx => h.trans (h' x hx)⟩, h', h''⟩
      · rintro ⟨⟨h, -⟩, h', h''⟩
        exact ⟨h, h', h''⟩

theorem Memory.mem_write {m : Memory α} {k : Nat} {x : α} {c : Nat × α} (h : c ∈ Memory.write m k x) :
    c.1 = k ∨ c ∈ m := by
  induction m with
  | nil => left; simp_all [Memory.write]
  | cons c' m ih =>
    obtain ⟨j, y⟩ := c'
    unfold Memory.write at h
    split at h
    · rcases List.mem_cons.mp h with rfl | h
      · exact .inl rfl
      · exact .inr h
    · split at h
      · rcases List.mem_cons.mp h with rfl | h
        · exact .inl rfl
        · exact .inr (List.mem_cons_of_mem _ h)
      · rcases List.mem_cons.mp h with rfl | h
        · exact .inr List.mem_cons_self
        · exact (ih h).imp id (List.mem_cons_of_mem _)

/-- A write keeps the canonical form. -/
theorem Memory.wf_write {m : Memory α} (h : Memory.wf m = true) (k : Nat) (x : α) :
    Memory.wf (Memory.write m k x) = true := by
  rw [Memory.wf_iff_pairwise] at *
  induction m with
  | nil => simp [Memory.write]
  | cons c m ih =>
    obtain ⟨j, y⟩ := c
    obtain ⟨hj, hm⟩ := List.pairwise_cons.mp h
    unfold Memory.write
    split
    · next hk =>
      refine List.pairwise_cons.mpr ⟨fun c hc => ?_, h⟩
      rcases List.mem_cons.mp hc with rfl | hc
      · exact hk
      · exact hk.trans (hj c hc)
    · split
      · next hk => subst hk; exact List.pairwise_cons.mpr ⟨hj, hm⟩
      · refine List.pairwise_cons.mpr ⟨fun c hc => ?_, ih hm⟩
        rcases Memory.mem_write hc with hc | hc
        · simp only [hc]; omega
        · exact hj c hc

/-- A fill keeps the canonical form. -/
theorem Memory.wf_fill {m : Memory α} (h : Memory.wf m = true) (n : Nat) (f : Nat → α) :
    Memory.wf (Memory.fill m n f) = true := by
  rw [Memory.wf_iff_pairwise] at *
  unfold Memory.fill
  refine List.pairwise_append.mpr ⟨?_, h.filter _, ?_⟩
  · rw [List.pairwise_map]; exact List.pairwise_lt_range
  · intro c hc c' hc'
    obtain ⟨k, hk, rfl⟩ := List.mem_map.mp hc
    have := List.mem_range.mp hk
    have := (List.mem_filter.mp hc').2
    simp at this
    simp only; omega

/-- A write inside the bounds keeps the bounds. -/
theorem Memory.below_write {m : Memory α} {n : Nat} (h : Memory.below m n = true) {k : Nat} (hk : k < n) (x : α) :
    Memory.below (Memory.write m k x) n = true := by
  simp only [Memory.below, List.all_eq_true, decide_eq_true_eq] at *
  intro c hc
  rcases Memory.mem_write hc with hc | hc
  · omega
  · exact h c hc

/-- A fill inside the bounds keeps the bounds. -/
theorem Memory.below_fill {m : Memory α} {n : Nat} (h : Memory.below m n = true) {k : Nat} (hk : k ≤ n) (f : Nat → α) :
    Memory.below (Memory.fill m k f) n = true := by
  simp only [Memory.below, List.all_eq_true, decide_eq_true_eq, Memory.fill, List.mem_append, List.mem_map,
    List.mem_range, List.mem_filter] at *
  rintro c (⟨i, hi, rfl⟩ | ⟨hc, -⟩)
  · simp only; omega
  · exact h c hc

end Sys2Proof.Machine
end

