-- ==== Sys2Proof/Laws/State.lean ====
section
/-! SUPPORT. One lemma per field per update of State, so that no proof unfolds a record update. -/

namespace Sys2Proof.Machine

variable (s : State)

/-! ### putSlot -/

@[simp] theorem State.putSlot_params (d : SlotNo) (x : Slot) : (s.putSlot d x).params = s.params := rfl
@[simp] theorem State.putSlot_slots (d : SlotNo) (x : Slot) :
    (s.putSlot d x).slots = s.slots.set d.toNat x d.isLt := rfl
@[simp] theorem State.putSlot_arg (d : SlotNo) (x : Slot) : (s.putSlot d x).arg = s.arg := rfl
@[simp] theorem State.putSlot_result (d : SlotNo) (x : Slot) : (s.putSlot d x).result = s.result := rfl
@[simp] theorem State.putSlot_code (d : SlotNo) (x : Slot) : (s.putSlot d x).code = s.code := rfl
@[simp] theorem State.putSlot_sticky (d : SlotNo) (x : Slot) : (s.putSlot d x).sticky = s.sticky := rfl
@[simp] theorem State.putSlot_sinlen (d : SlotNo) (x : Slot) : (s.putSlot d x).sinlen = s.sinlen := rfl
@[simp] theorem State.putSlot_soutlen (d : SlotNo) (x : Slot) : (s.putSlot d x).soutlen = s.soutlen := rfl
@[simp] theorem State.putSlot_sin (d : SlotNo) (x : Slot) : (s.putSlot d x).sin = s.sin := rfl
@[simp] theorem State.putSlot_sout (d : SlotNo) (x : Slot) : (s.putSlot d x).sout = s.sout := rfl
@[simp] theorem State.putSlot_cc (d : SlotNo) (x : Slot) : (s.putSlot d x).cc = s.cc := rfl
@[simp] theorem State.putSlot_inReset (d : SlotNo) (x : Slot) : (s.putSlot d x).inReset = s.inReset := rfl
@[simp] theorem State.putSlot_pending (d : SlotNo) (x : Slot) : (s.putSlot d x).pending = s.pending := rfl
@[simp] theorem State.putSlot_readData (d : SlotNo) (x : Slot) : (s.putSlot d x).readData = s.readData := rfl
@[simp] theorem State.putSlot_resets (d : SlotNo) (x : Slot) : (s.putSlot d x).resets = s.resets := rfl

/-! ### putArray -/

@[simp] theorem State.putArray_params (d : SlotNo) (len : Nat) (f : Nat → Word) :
    (s.putArray d len f).params = s.params := rfl
@[simp] theorem State.putArray_arg (d : SlotNo) (len : Nat) (f : Nat → Word) : (s.putArray d len f).arg = s.arg := rfl
@[simp] theorem State.putArray_result (d : SlotNo) (len : Nat) (f : Nat → Word) :
    (s.putArray d len f).result = s.result := rfl
@[simp] theorem State.putArray_code (d : SlotNo) (len : Nat) (f : Nat → Word) :
    (s.putArray d len f).code = s.code := rfl
@[simp] theorem State.putArray_sticky (d : SlotNo) (len : Nat) (f : Nat → Word) :
    (s.putArray d len f).sticky = s.sticky := rfl
@[simp] theorem State.putArray_sinlen (d : SlotNo) (len : Nat) (f : Nat → Word) :
    (s.putArray d len f).sinlen = s.sinlen := rfl
@[simp] theorem State.putArray_soutlen (d : SlotNo) (len : Nat) (f : Nat → Word) :
    (s.putArray d len f).soutlen = s.soutlen := rfl
@[simp] theorem State.putArray_sin (d : SlotNo) (len : Nat) (f : Nat → Word) : (s.putArray d len f).sin = s.sin := rfl
@[simp] theorem State.putArray_sout (d : SlotNo) (len : Nat) (f : Nat → Word) :
    (s.putArray d len f).sout = s.sout := rfl
@[simp] theorem State.putArray_cc (d : SlotNo) (len : Nat) (f : Nat → Word) : (s.putArray d len f).cc = s.cc := rfl
@[simp] theorem State.putArray_inReset (d : SlotNo) (len : Nat) (f : Nat → Word) :
    (s.putArray d len f).inReset = s.inReset := rfl
@[simp] theorem State.putArray_pending (d : SlotNo) (len : Nat) (f : Nat → Word) :
    (s.putArray d len f).pending = s.pending := rfl
@[simp] theorem State.putArray_readData (d : SlotNo) (len : Nat) (f : Nat → Word) :
    (s.putArray d len f).readData = s.readData := rfl
@[simp] theorem State.putArray_resets (d : SlotNo) (len : Nat) (f : Nat → Word) :
    (s.putArray d len f).resets = s.resets := rfl

/-! ### putWords -/

@[simp] theorem State.putWords_params (d : SlotNo) (f : Nat → Word) : (s.putWords d f).params = s.params := rfl
@[simp] theorem State.putWords_arg (d : SlotNo) (f : Nat → Word) : (s.putWords d f).arg = s.arg := rfl
@[simp] theorem State.putWords_result (d : SlotNo) (f : Nat → Word) : (s.putWords d f).result = s.result := rfl
@[simp] theorem State.putWords_code (d : SlotNo) (f : Nat → Word) : (s.putWords d f).code = s.code := rfl
@[simp] theorem State.putWords_sticky (d : SlotNo) (f : Nat → Word) : (s.putWords d f).sticky = s.sticky := rfl
@[simp] theorem State.putWords_sinlen (d : SlotNo) (f : Nat → Word) : (s.putWords d f).sinlen = s.sinlen := rfl
@[simp] theorem State.putWords_soutlen (d : SlotNo) (f : Nat → Word) : (s.putWords d f).soutlen = s.soutlen := rfl
@[simp] theorem State.putWords_sin (d : SlotNo) (f : Nat → Word) : (s.putWords d f).sin = s.sin := rfl
@[simp] theorem State.putWords_sout (d : SlotNo) (f : Nat → Word) : (s.putWords d f).sout = s.sout := rfl
@[simp] theorem State.putWords_cc (d : SlotNo) (f : Nat → Word) : (s.putWords d f).cc = s.cc := rfl
@[simp] theorem State.putWords_inReset (d : SlotNo) (f : Nat → Word) : (s.putWords d f).inReset = s.inReset := rfl
@[simp] theorem State.putWords_pending (d : SlotNo) (f : Nat → Word) : (s.putWords d f).pending = s.pending := rfl
@[simp] theorem State.putWords_readData (d : SlotNo) (f : Nat → Word) : (s.putWords d f).readData = s.readData := rfl
@[simp] theorem State.putWords_resets (d : SlotNo) (f : Nat → Word) : (s.putWords d f).resets = s.resets := rfl

/-! ### putWord -/

@[simp] theorem State.putWord_params (d : SlotNo) (k : Nat) (w : Word) : (s.putWord d k w).params = s.params := rfl
@[simp] theorem State.putWord_arg (d : SlotNo) (k : Nat) (w : Word) : (s.putWord d k w).arg = s.arg := rfl
@[simp] theorem State.putWord_result (d : SlotNo) (k : Nat) (w : Word) : (s.putWord d k w).result = s.result := rfl
@[simp] theorem State.putWord_code (d : SlotNo) (k : Nat) (w : Word) : (s.putWord d k w).code = s.code := rfl
@[simp] theorem State.putWord_sticky (d : SlotNo) (k : Nat) (w : Word) : (s.putWord d k w).sticky = s.sticky := rfl
@[simp] theorem State.putWord_sinlen (d : SlotNo) (k : Nat) (w : Word) : (s.putWord d k w).sinlen = s.sinlen := rfl
@[simp] theorem State.putWord_soutlen (d : SlotNo) (k : Nat) (w : Word) : (s.putWord d k w).soutlen = s.soutlen := rfl
@[simp] theorem State.putWord_sin (d : SlotNo) (k : Nat) (w : Word) : (s.putWord d k w).sin = s.sin := rfl
@[simp] theorem State.putWord_sout (d : SlotNo) (k : Nat) (w : Word) : (s.putWord d k w).sout = s.sout := rfl
@[simp] theorem State.putWord_cc (d : SlotNo) (k : Nat) (w : Word) : (s.putWord d k w).cc = s.cc := rfl
@[simp] theorem State.putWord_inReset (d : SlotNo) (k : Nat) (w : Word) : (s.putWord d k w).inReset = s.inReset := rfl
@[simp] theorem State.putWord_pending (d : SlotNo) (k : Nat) (w : Word) : (s.putWord d k w).pending = s.pending := rfl
@[simp] theorem State.putWord_readData (d : SlotNo) (k : Nat) (w : Word) :
    (s.putWord d k w).readData = s.readData := rfl
@[simp] theorem State.putWord_resets (d : SlotNo) (k : Nat) (w : Word) : (s.putWord d k w).resets = s.resets := rfl

/-! ### setResult -/

@[simp] theorem State.setResult_params (w : Word) : (s.setResult w).params = s.params := rfl
@[simp] theorem State.setResult_slots (w : Word) : (s.setResult w).slots = s.slots := rfl
@[simp] theorem State.setResult_arg (w : Word) : (s.setResult w).arg = s.arg := rfl
@[simp] theorem State.setResult_result (w : Word) : (s.setResult w).result = w := rfl
@[simp] theorem State.setResult_code (w : Word) : (s.setResult w).code = s.code := rfl
@[simp] theorem State.setResult_sticky (w : Word) : (s.setResult w).sticky = s.sticky := rfl
@[simp] theorem State.setResult_sinlen (w : Word) : (s.setResult w).sinlen = s.sinlen := rfl
@[simp] theorem State.setResult_soutlen (w : Word) : (s.setResult w).soutlen = s.soutlen := rfl
@[simp] theorem State.setResult_sin (w : Word) : (s.setResult w).sin = s.sin := rfl
@[simp] theorem State.setResult_sout (w : Word) : (s.setResult w).sout = s.sout := rfl
@[simp] theorem State.setResult_cc (w : Word) : (s.setResult w).cc = s.cc := rfl
@[simp] theorem State.setResult_inReset (w : Word) : (s.setResult w).inReset = s.inReset := rfl
@[simp] theorem State.setResult_pending (w : Word) : (s.setResult w).pending = s.pending := rfl
@[simp] theorem State.setResult_readData (w : Word) : (s.setResult w).readData = s.readData := rfl
@[simp] theorem State.setResult_resets (w : Word) : (s.setResult w).resets = s.resets := rfl

/-! ### setArg -/

@[simp] theorem State.setArg_params (w : Word) : (s.setArg w).params = s.params := rfl
@[simp] theorem State.setArg_slots (w : Word) : (s.setArg w).slots = s.slots := rfl
@[simp] theorem State.setArg_arg (w : Word) : (s.setArg w).arg = w := rfl
@[simp] theorem State.setArg_result (w : Word) : (s.setArg w).result = s.result := rfl
@[simp] theorem State.setArg_code (w : Word) : (s.setArg w).code = s.code := rfl
@[simp] theorem State.setArg_sticky (w : Word) : (s.setArg w).sticky = s.sticky := rfl
@[simp] theorem State.setArg_sinlen (w : Word) : (s.setArg w).sinlen = s.sinlen := rfl
@[simp] theorem State.setArg_soutlen (w : Word) : (s.setArg w).soutlen = s.soutlen := rfl
@[simp] theorem State.setArg_sin (w : Word) : (s.setArg w).sin = s.sin := rfl
@[simp] theorem State.setArg_sout (w : Word) : (s.setArg w).sout = s.sout := rfl
@[simp] theorem State.setArg_cc (w : Word) : (s.setArg w).cc = s.cc := rfl
@[simp] theorem State.setArg_inReset (w : Word) : (s.setArg w).inReset = s.inReset := rfl
@[simp] theorem State.setArg_pending (w : Word) : (s.setArg w).pending = s.pending := rfl
@[simp] theorem State.setArg_readData (w : Word) : (s.setArg w).readData = s.readData := rfl
@[simp] theorem State.setArg_resets (w : Word) : (s.setArg w).resets = s.resets := rfl

/-! ### setSinlen -/

@[simp] theorem State.setSinlen_params (w : Word) : (s.setSinlen w).params = s.params := rfl
@[simp] theorem State.setSinlen_slots (w : Word) : (s.setSinlen w).slots = s.slots := rfl
@[simp] theorem State.setSinlen_arg (w : Word) : (s.setSinlen w).arg = s.arg := rfl
@[simp] theorem State.setSinlen_result (w : Word) : (s.setSinlen w).result = s.result := rfl
@[simp] theorem State.setSinlen_code (w : Word) : (s.setSinlen w).code = s.code := rfl
@[simp] theorem State.setSinlen_sticky (w : Word) : (s.setSinlen w).sticky = s.sticky := rfl
@[simp] theorem State.setSinlen_sinlen (w : Word) : (s.setSinlen w).sinlen = w := rfl
@[simp] theorem State.setSinlen_soutlen (w : Word) : (s.setSinlen w).soutlen = s.soutlen := rfl
@[simp] theorem State.setSinlen_sin (w : Word) : (s.setSinlen w).sin = s.sin := rfl
@[simp] theorem State.setSinlen_sout (w : Word) : (s.setSinlen w).sout = s.sout := rfl
@[simp] theorem State.setSinlen_cc (w : Word) : (s.setSinlen w).cc = s.cc := rfl
@[simp] theorem State.setSinlen_inReset (w : Word) : (s.setSinlen w).inReset = s.inReset := rfl
@[simp] theorem State.setSinlen_pending (w : Word) : (s.setSinlen w).pending = s.pending := rfl
@[simp] theorem State.setSinlen_readData (w : Word) : (s.setSinlen w).readData = s.readData := rfl
@[simp] theorem State.setSinlen_resets (w : Word) : (s.setSinlen w).resets = s.resets := rfl

/-! ### setSin -/

@[simp] theorem State.setSin_params (j : Nat) (c : Byte) : (s.setSin j c).params = s.params := rfl
@[simp] theorem State.setSin_slots (j : Nat) (c : Byte) : (s.setSin j c).slots = s.slots := rfl
@[simp] theorem State.setSin_arg (j : Nat) (c : Byte) : (s.setSin j c).arg = s.arg := rfl
@[simp] theorem State.setSin_result (j : Nat) (c : Byte) : (s.setSin j c).result = s.result := rfl
@[simp] theorem State.setSin_code (j : Nat) (c : Byte) : (s.setSin j c).code = s.code := rfl
@[simp] theorem State.setSin_sticky (j : Nat) (c : Byte) : (s.setSin j c).sticky = s.sticky := rfl
@[simp] theorem State.setSin_sinlen (j : Nat) (c : Byte) : (s.setSin j c).sinlen = s.sinlen := rfl
@[simp] theorem State.setSin_soutlen (j : Nat) (c : Byte) : (s.setSin j c).soutlen = s.soutlen := rfl
@[simp] theorem State.setSin_sin (j : Nat) (c : Byte) : (s.setSin j c).sin = s.sin.write j c := rfl
@[simp] theorem State.setSin_sout (j : Nat) (c : Byte) : (s.setSin j c).sout = s.sout := rfl
@[simp] theorem State.setSin_cc (j : Nat) (c : Byte) : (s.setSin j c).cc = s.cc := rfl
@[simp] theorem State.setSin_inReset (j : Nat) (c : Byte) : (s.setSin j c).inReset = s.inReset := rfl
@[simp] theorem State.setSin_pending (j : Nat) (c : Byte) : (s.setSin j c).pending = s.pending := rfl
@[simp] theorem State.setSin_readData (j : Nat) (c : Byte) : (s.setSin j c).readData = s.readData := rfl
@[simp] theorem State.setSin_resets (j : Nat) (c : Byte) : (s.setSin j c).resets = s.resets := rfl

/-! ### setReadData -/

@[simp] theorem State.setReadData_params (w : Word) : (s.setReadData w).params = s.params := rfl
@[simp] theorem State.setReadData_slots (w : Word) : (s.setReadData w).slots = s.slots := rfl
@[simp] theorem State.setReadData_arg (w : Word) : (s.setReadData w).arg = s.arg := rfl
@[simp] theorem State.setReadData_result (w : Word) : (s.setReadData w).result = s.result := rfl
@[simp] theorem State.setReadData_code (w : Word) : (s.setReadData w).code = s.code := rfl
@[simp] theorem State.setReadData_sticky (w : Word) : (s.setReadData w).sticky = s.sticky := rfl
@[simp] theorem State.setReadData_sinlen (w : Word) : (s.setReadData w).sinlen = s.sinlen := rfl
@[simp] theorem State.setReadData_soutlen (w : Word) : (s.setReadData w).soutlen = s.soutlen := rfl
@[simp] theorem State.setReadData_sin (w : Word) : (s.setReadData w).sin = s.sin := rfl
@[simp] theorem State.setReadData_sout (w : Word) : (s.setReadData w).sout = s.sout := rfl
@[simp] theorem State.setReadData_cc (w : Word) : (s.setReadData w).cc = s.cc := rfl
@[simp] theorem State.setReadData_inReset (w : Word) : (s.setReadData w).inReset = s.inReset := rfl
@[simp] theorem State.setReadData_pending (w : Word) : (s.setReadData w).pending = s.pending := rfl
@[simp] theorem State.setReadData_readData (w : Word) : (s.setReadData w).readData = some w := rfl
@[simp] theorem State.setReadData_resets (w : Word) : (s.setReadData w).resets = s.resets := rfl

/-! ### putText -/

@[simp] theorem State.putText_params (n : Nat) (f : Nat → Byte) : (s.putText n f).params = s.params := rfl
@[simp] theorem State.putText_slots (n : Nat) (f : Nat → Byte) : (s.putText n f).slots = s.slots := rfl
@[simp] theorem State.putText_arg (n : Nat) (f : Nat → Byte) : (s.putText n f).arg = s.arg := rfl
@[simp] theorem State.putText_result (n : Nat) (f : Nat → Byte) : (s.putText n f).result = s.result := rfl
@[simp] theorem State.putText_code (n : Nat) (f : Nat → Byte) : (s.putText n f).code = s.code := rfl
@[simp] theorem State.putText_sticky (n : Nat) (f : Nat → Byte) : (s.putText n f).sticky = s.sticky := rfl
@[simp] theorem State.putText_sinlen (n : Nat) (f : Nat → Byte) : (s.putText n f).sinlen = s.sinlen := rfl
@[simp] theorem State.putText_soutlen (n : Nat) (f : Nat → Byte) : (s.putText n f).soutlen = BitVec.ofNat 32 n := rfl
@[simp] theorem State.putText_sin (n : Nat) (f : Nat → Byte) : (s.putText n f).sin = s.sin := rfl
@[simp] theorem State.putText_sout (n : Nat) (f : Nat → Byte) : (s.putText n f).sout = s.sout.fill n f := rfl
@[simp] theorem State.putText_cc (n : Nat) (f : Nat → Byte) : (s.putText n f).cc = s.cc := rfl
@[simp] theorem State.putText_inReset (n : Nat) (f : Nat → Byte) : (s.putText n f).inReset = s.inReset := rfl
@[simp] theorem State.putText_pending (n : Nat) (f : Nat → Byte) : (s.putText n f).pending = s.pending := rfl
@[simp] theorem State.putText_readData (n : Nat) (f : Nat → Byte) : (s.putText n f).readData = s.readData := rfl
@[simp] theorem State.putText_resets (n : Nat) (f : Nat → Byte) : (s.putText n f).resets = s.resets := rfl

/-! ### tick -/

@[simp] theorem State.tick_params : (s.tick).params = s.params := rfl
@[simp] theorem State.tick_slots : (s.tick).slots = s.slots := rfl
@[simp] theorem State.tick_arg : (s.tick).arg = s.arg := rfl
@[simp] theorem State.tick_result : (s.tick).result = s.result := rfl
@[simp] theorem State.tick_code : (s.tick).code = s.code := rfl
@[simp] theorem State.tick_sticky : (s.tick).sticky = s.sticky := rfl
@[simp] theorem State.tick_sinlen : (s.tick).sinlen = s.sinlen := rfl
@[simp] theorem State.tick_soutlen : (s.tick).soutlen = s.soutlen := rfl
@[simp] theorem State.tick_sin : (s.tick).sin = s.sin := rfl
@[simp] theorem State.tick_sout : (s.tick).sout = s.sout := rfl
@[simp] theorem State.tick_cc : (s.tick).cc = s.cc + 1 := rfl
@[simp] theorem State.tick_inReset : (s.tick).inReset = s.inReset := rfl
@[simp] theorem State.tick_pending : (s.tick).pending = s.pending := rfl
@[simp] theorem State.tick_readData : (s.tick).readData = s.readData := rfl
@[simp] theorem State.tick_resets : (s.tick).resets = s.resets := rfl

/-! ### raise -/

@[simp] theorem State.raise_params (e : ErrorCode) : (s.raise e).params = s.params := rfl
@[simp] theorem State.raise_slots (e : ErrorCode) : (s.raise e).slots = s.slots := rfl
@[simp] theorem State.raise_arg (e : ErrorCode) : (s.raise e).arg = s.arg := rfl
@[simp] theorem State.raise_result (e : ErrorCode) : (s.raise e).result = s.result := rfl
@[simp] theorem State.raise_code (e : ErrorCode) : (s.raise e).code = e.code := rfl
@[simp] theorem State.raise_sticky (e : ErrorCode) : (s.raise e).sticky = true := rfl
@[simp] theorem State.raise_sinlen (e : ErrorCode) : (s.raise e).sinlen = s.sinlen := rfl
@[simp] theorem State.raise_soutlen (e : ErrorCode) : (s.raise e).soutlen = s.soutlen := rfl
@[simp] theorem State.raise_sin (e : ErrorCode) : (s.raise e).sin = s.sin := rfl
@[simp] theorem State.raise_sout (e : ErrorCode) : (s.raise e).sout = s.sout := rfl
@[simp] theorem State.raise_cc (e : ErrorCode) : (s.raise e).cc = s.cc := rfl
@[simp] theorem State.raise_inReset (e : ErrorCode) : (s.raise e).inReset = s.inReset := rfl
@[simp] theorem State.raise_pending (e : ErrorCode) : (s.raise e).pending = s.pending := rfl
@[simp] theorem State.raise_readData (e : ErrorCode) : (s.raise e).readData = s.readData := rfl
@[simp] theorem State.raise_resets (e : ErrorCode) : (s.raise e).resets = s.resets := rfl

/-! ### succeed -/

@[simp] theorem State.succeed_params : (s.succeed).params = s.params := rfl
@[simp] theorem State.succeed_slots : (s.succeed).slots = s.slots := rfl
@[simp] theorem State.succeed_arg : (s.succeed).arg = s.arg := rfl
@[simp] theorem State.succeed_result : (s.succeed).result = s.result := rfl
@[simp] theorem State.succeed_code : (s.succeed).code = 0 := rfl
@[simp] theorem State.succeed_sticky : (s.succeed).sticky = s.sticky := rfl
@[simp] theorem State.succeed_sinlen : (s.succeed).sinlen = s.sinlen := rfl
@[simp] theorem State.succeed_soutlen : (s.succeed).soutlen = s.soutlen := rfl
@[simp] theorem State.succeed_sin : (s.succeed).sin = s.sin := rfl
@[simp] theorem State.succeed_sout : (s.succeed).sout = s.sout := rfl
@[simp] theorem State.succeed_cc : (s.succeed).cc = s.cc := rfl
@[simp] theorem State.succeed_inReset : (s.succeed).inReset = s.inReset := rfl
@[simp] theorem State.succeed_pending : (s.succeed).pending = s.pending := rfl
@[simp] theorem State.succeed_readData : (s.succeed).readData = s.readData := rfl
@[simp] theorem State.succeed_resets : (s.succeed).resets = s.resets := rfl

/-! ### applyReset -/

@[simp] theorem State.applyReset_params : s.applyReset.params = s.params := rfl
@[simp] theorem State.applyReset_slots : s.applyReset.slots = Vector.replicate 16 Slot.empty := rfl
@[simp] theorem State.applyReset_arg : s.applyReset.arg = 0 := rfl
@[simp] theorem State.applyReset_result : s.applyReset.result = 0 := rfl
@[simp] theorem State.applyReset_code : s.applyReset.code = 0 := rfl
@[simp] theorem State.applyReset_sticky : s.applyReset.sticky = false := rfl
@[simp] theorem State.applyReset_sinlen : s.applyReset.sinlen = 0 := rfl
@[simp] theorem State.applyReset_soutlen : s.applyReset.soutlen = 0 := rfl
@[simp] theorem State.applyReset_sin : s.applyReset.sin = [] := rfl
@[simp] theorem State.applyReset_sout : s.applyReset.sout = [] := rfl
@[simp] theorem State.applyReset_cc : s.applyReset.cc = 0 := rfl
@[simp] theorem State.applyReset_inReset : s.applyReset.inReset = true := rfl
@[simp] theorem State.applyReset_pending : s.applyReset.pending = s.pending := rfl
@[simp] theorem State.applyReset_readData : s.applyReset.readData = s.readData := rfl
@[simp] theorem State.applyReset_resets : s.applyReset.resets = s.resets + 1 := rfl

end Sys2Proof.Machine
end

