-- ==== Sys2Proof/Laws/Ops.lean ====
section
/-! SUPPORT. What the operations over slots do, and everything a command, a slot check or the end of a body can do. -/

namespace Sys2Proof.Machine

/-! ### The slot file -/

@[simp] theorem State.slot_putSlot (s : State) (d : SlotNo) (x : Slot) (a : SlotNo) :
    (s.putSlot d x).slot a = if a = d then x else s.slot a := by
  simp only [State.slot, State.putSlot, Vector.getElem_set, BitVec.toNat_inj, eq_comm (a := d)]

/-- Two states with one slot file have the same slots. -/
theorem State.slot_congr {s t : State} (h : t.slots = s.slots) (a : SlotNo) : t.slot a = s.slot a := by
  simp only [State.slot, h]

/-- Two slot files with the same slots are one. -/
theorem State.slots_ext {s t : State} (h : ∀ a, t.slot a = s.slot a) : t.slots = s.slots := by
  ext1 i hi
  have := h (BitVec.ofNat 4 i)
  simpa [State.slot, Nat.mod_eq_of_lt hi] using this

@[simp] theorem State.slot_setResult (s : State) (w : Word) (a : SlotNo) : (s.setResult w).slot a = s.slot a := rfl
@[simp] theorem State.slot_putText (s : State) (n : Nat) (f : Nat → Byte) (a : SlotNo) :
    (s.putText n f).slot a = s.slot a := rfl
@[simp] theorem State.slot_succeed (s : State) (a : SlotNo) : s.succeed.slot a = s.slot a := rfl
@[simp] theorem State.slot_raise (s : State) (e : ErrorCode) (a : SlotNo) : (s.raise e).slot a = s.slot a := rfl
@[simp] theorem State.slot_tick (s : State) (a : SlotNo) : s.tick.slot a = s.slot a := rfl

@[simp] theorem State.slot_putArray (s : State) (d : SlotNo) (len : Nat) (f : Nat → Word) (a : SlotNo) :
    (s.putArray d len f).slot a =
      if a = d then ⟨true, len, (s.slot d).words.fill (len / 32) f⟩ else s.slot a :=
  State.slot_putSlot ..

@[simp] theorem State.slot_putWords (s : State) (d : SlotNo) (f : Nat → Word) (a : SlotNo) :
    (s.putWords d f).slot a =
      if a = d then { s.slot d with words := (s.slot d).words.fill ((s.slot d).len / 32) f } else s.slot a :=
  State.slot_putSlot ..

@[simp] theorem State.slot_putWord (s : State) (d : SlotNo) (k : Nat) (w : Word) (a : SlotNo) :
    (s.putWord d k w).slot a =
      if a = d then { s.slot d with words := (s.slot d).words.write k w } else s.slot a :=
  State.slot_putSlot ..

/-! ### Words -/

/-- A word depends on its slot's storage and, where nothing is written, on the reset epoch. -/
theorem State.word_congr {s t : State} {a : SlotNo} (h : (t.slot a).words = (s.slot a).words)
    (hr : t.resets = s.resets) (k : Nat) : t.word a k = s.word a k := by
  simp only [State.word, h, hr]

@[simp] theorem State.word_succeed (s : State) (a : SlotNo) (k : Nat) : s.succeed.word a k = s.word a k := rfl
@[simp] theorem State.word_raise (s : State) (e : ErrorCode) (a : SlotNo) (k : Nat) :
    (s.raise e).word a k = s.word a k := rfl

/-- Writing a slot whole writes the words of its array and no other word. -/
@[simp] theorem State.word_putArray (s : State) (d : SlotNo) (len : Nat) (f : Nat → Word) (a : SlotNo) (k : Nat) :
    (s.putArray d len f).word a k = if a = d ∧ k < len / 32 then f k else s.word a k := by
  by_cases h : a = d
  · subst h
    by_cases hk : k < len / 32 <;> simp [State.word, State.putArray, hk]
  · simp [State.word, State.putArray, h]

/-- Writing the words of an array writes them and no other word. -/
@[simp] theorem State.word_putWords (s : State) (d : SlotNo) (f : Nat → Word) (a : SlotNo) (k : Nat) :
    (s.putWords d f).word a k = if a = d ∧ k < (s.slot d).len / 32 then f k else s.word a k := by
  by_cases h : a = d
  · subst h
    by_cases hk : k < (s.slot a).len / 32 <;> simp [State.word, State.putWords, hk]
  · simp [State.word, State.putWords, h]

/-- Writing one word writes it and no other word. -/
@[simp] theorem State.word_putWord (s : State) (d : SlotNo) (j : Nat) (w : Word) (a : SlotNo) (k : Nat) :
    (s.putWord d j w).word a k = if a = d ∧ k = j then w else s.word a k := by
  by_cases h : a = d
  · subst h
    by_cases hk : k = j <;> simp [State.word, State.putWord, hk]
  · simp [State.word, State.putWord, h]

/-! ### Character cells -/

/-- A SIN cell the host has written reads as the character it wrote (R42). -/
theorem State.sinChar_of_written {s : State} {j : Nat} {c : Byte} (h : s.sin.read? j = some c) : s.sinChar j = c := by
  simp [State.sinChar, h]

/-- A SOUT cell an encoder has written reads as the character it wrote (R42). -/
theorem State.soutChar_of_written {s : State} {j : Nat} {c : Byte} (h : s.sout.read? j = some c) : s.soutChar j = c := by
  simp [State.soutChar, h]

/-! ### Commands -/

/-- The end of a checked body: the error of a check that failed, or the end of the rest. -/
theorem Ending.require_cases (ok : Bool) (e : ErrorCode) (k : Ending) :
    (ok = false ∧ Ending.require ok e k = .error e) ∨ (ok = true ∧ Ending.require ok e k = k) := by
  cases ok <;> simp [Ending.require]

@[simp] theorem Ending.require_true (e : ErrorCode) (k : Ending) : Ending.require true e k = k := rfl
@[simp] theorem Ending.require_false (e : ErrorCode) (k : Ending) : Ending.require false e k = .error e := rfl

/-- A checked body commits only when the check held and the rest commits. -/
theorem Ending.require_eq_commit {ok : Bool} {e : ErrorCode} {k : Ending} {t : State} :
    Ending.require ok e k = .commit t ↔ ok = true ∧ k = .commit t := by
  cases ok <;> simp

/-- A checked body stops the model only when the check held and the rest stops it. -/
theorem Ending.require_eq_stop {ok : Bool} {e : ErrorCode} {k : Ending} {f : Fault} :
    Ending.require ok e k = .stop f ↔ ok = true ∧ k = .stop f := by
  cases ok <;> simp

/-- Everything a command that takes a next state can have done: commit its body's writes and report success, or report an
error and change nothing else. -/
theorem runCommand_next {s t : State} {used : List SlotNo} {body : Ending} (h : runCommand s used body = .next t) :
    (used.all s.params.hasSlot = true ∧ ∃ u, body = .commit u ∧ t = u.succeed) ∨ ∃ e, t = s.raise e := by
  unfold runCommand at h
  split at h
  · next hu =>
    cases body with
    | commit u => exact .inl ⟨hu, u, rfl, by simpa using h.symm⟩
    | error e => exact .inr ⟨e, by simpa using h.symm⟩
    | stop f => simp at h
  · exact .inr ⟨_, by simpa using h.symm⟩

/-- A command stops the model only where its body does. -/
theorem runCommand_fault {s : State} {used : List SlotNo} {body : Ending} {f : Fault}
    (h : runCommand s used body = .fault f) : body = .stop f := by
  unfold runCommand at h
  split at h
  · cases body with
    | commit u => simp at h
    | error e => simp at h
    | stop g => simpa using h
  · simp at h

/-- No command is refused. -/
theorem runCommand_not_refused (s : State) (used : List SlotNo) (body : Ending) (r : Refusal) :
    runCommand s used body ≠ .refused r := by
  unfold runCommand
  split
  · cases body <;> simp
  · simp

/-- A command whose slots exist ends as its body does. -/
theorem runCommand_of_slots {s : State} {used : List SlotNo} (h : used.all s.params.hasSlot = true) (body : Ending) :
    runCommand s used body =
      match body with
      | .commit t => .next t.succeed
      | .error e => .next (s.raise e)
      | .stop f => .fault f := by
  cases body <;> simp [runCommand, h]

/-- A command that names a slot the block does not have is illegal (R63(c)). -/
theorem runCommand_illegal {s : State} {used : List SlotNo} (h : used.all s.params.hasSlot = false) (body : Ending) :
    runCommand s used body = .next (s.raise .illegalCommand) := by
  unfold runCommand; rw [if_neg (by simp [h])]

/-- Every error has a code from 1 to 7 (R130). -/
theorem ErrorCode.code_range (e : ErrorCode) : e.code ≠ 0 ∧ e.code.toNat ≤ 7 := by cases e <;> decide

end Sys2Proof.Machine
end

