-- ==== Sys2Proof/Laws/Exec.lean ====
section
/-! SUPPORT. Everything exec can do, said once: the writes a command commits, and that it otherwise reports an error. -/

namespace Sys2Proof.Machine

/-- The writes command `i` commits from `s`, and the checks it has passed (the pseudocode of each command's rule). -/
def Commits (s u : State) : Instr → Prop
  | .create d => roundcap s.arg.toNat ≤ s.params.maxBits ∧ u = s.putArray d (roundcap s.arg.toNat) fun _ => 0
  | .createh d =>
    roundcap s.arg.toNat ≤ s.params.maxBits ∧ 4 * s.sinlen.toNat ≤ roundcap s.arg.toNat ∧
    s.firstUnwritten s.sinlen.toNat = none ∧ s.seedIsHex s.sinlen.toNat = true ∧
    u = s.putArray d (roundcap s.arg.toNat)
      (decodeWord (roundcap s.arg.toNat / 4 - s.sinlen.toNat) s.sinChar)
  | .get a =>
    s.allValid [a] = true ∧ s.arg.toNat < (s.slot a).len ∧
    u = s.setResult (if s.word a (mapIndex s.arg (s.slot a).len).wordIndex &&&
      (mapIndex s.arg (s.slot a).len).mask ≠ 0 then 1 else 0)
  | .set d v =>
    s.allValid [d] = true ∧ s.arg.toNat < (s.slot d).len ∧
    u = s.putWord d (mapIndex s.arg (s.slot d).len).wordIndex
      (if v then s.word d (mapIndex s.arg (s.slot d).len).wordIndex ||| (mapIndex s.arg (s.slot d).len).mask
       else s.word d (mapIndex s.arg (s.slot d).len).wordIndex &&& ~~~(mapIndex s.arg (s.slot d).len).mask)
  | .toggle d =>
    s.allValid [d] = true ∧ s.arg.toNat < (s.slot d).len ∧
    u = s.putWord d (mapIndex s.arg (s.slot d).len).wordIndex
      (s.word d (mapIndex s.arg (s.slot d).len).wordIndex ^^^ (mapIndex s.arg (s.slot d).len).mask)
  | .size a => s.allValid [a] = true ∧ u = s.setResult (BitVec.ofNat 32 (s.slot a).len)
  | .count a => s.allValid [a] = true ∧ u = s.setResult (BitVec.ofNat 32 (s.popcount a))
  | .equals a b =>
    s.allValid [a, b] = true ∧
    u = s.setResult (if (s.slot a).len = (s.slot b).len ∧ s.sameWords a b then 1 else 0)
  | .copy d a => s.allValid [a] = true ∧ u = s.putArray d (s.slot a).len (s.word a)
  | .not d => s.allValid [d] = true ∧ u = s.putWords d fun q => ~~~(s.word d q)
  | .and d a b =>
    s.allValid [a, b] = true ∧ (s.slot a).len = (s.slot b).len ∧
    u = s.putArray d (s.slot a).len fun q => s.word a q &&& s.word b q
  | .or d a b =>
    s.allValid [a, b] = true ∧ (s.slot a).len = (s.slot b).len ∧
    u = s.putArray d (s.slot a).len fun q => s.word a q ||| s.word b q
  | .xor d a b =>
    s.allValid [a, b] = true ∧ (s.slot a).len = (s.slot b).len ∧
    u = s.putArray d (s.slot a).len fun q => s.word a q ^^^ s.word b q
  | .tobin a => s.allValid [a] = true ∧ u = s.putText (s.slot a).len (s.binChar a)
  | .tohex a => s.allValid [a] = true ∧ u = s.putText ((s.slot a).len / 4) (s.hexChar a)

/-- The body a command gives runCommand, as exec reads it. -/
theorem exec_eq_runCommand (i : Instr) (s : State) :
    ∃ body, exec i s = runCommand s i.slots body ∧ ∀ u, body = .commit u ↔ Commits s u i := by
  cases i <;> refine ⟨_, rfl, fun u => ?_⟩ <;>
    simp only [Commits, withBit, mapIndex, Ending.require_eq_commit, Ending.commit.injEq, decide_eq_true_eq,
      eq_comm (b := u)]
  case createh d =>
    cases s.firstUnwritten s.sinlen.toNat <;>
      simp [Ending.require_eq_commit, eq_comm (b := u)]

/-- Everything exec can do when it takes a next state: the slots exist, the writes of the command are committed and success
is reported; or an error is reported and nothing else changes. -/
theorem exec_next {i : Instr} {s t : State} (h : exec i s = .next t) :
    (i.wf s.params = true ∧ ∃ u, Commits s u i ∧ t = u.succeed) ∨ ∃ e, t = s.raise e := by
  obtain ⟨body, hb, hc⟩ := exec_eq_runCommand i s
  rw [hb] at h
  obtain ⟨hu, u, hbu, rfl⟩ | ⟨e, rfl⟩ := runCommand_next h
  · exact .inl ⟨hu, u, (hc u).mp hbu, rfl⟩
  · exact .inr ⟨e, rfl⟩

/-- Where the slots exist and the checks pass, the command completes with its writes and success. -/
theorem exec_of_commits {i : Instr} {s u : State} (hw : i.wf s.params = true) (h : Commits s u i) :
    exec i s = .next u.succeed := by
  obtain ⟨body, hb, hc⟩ := exec_eq_runCommand i s
  rw [hb, runCommand_of_slots hw, (hc u).mpr h]

/-- A command that names a slot the block does not have is illegal (R63(c)). -/
theorem exec_illegal {i : Instr} {s : State} (h : i.wf s.params = false) :
    exec i s = .next (s.raise .illegalCommand) := by
  obtain ⟨body, hb, -⟩ := exec_eq_runCommand i s
  rw [hb, runCommand_illegal h]

/-- No command is refused. -/
theorem exec_not_refused (i : Instr) (s : State) (r : Refusal) : exec i s ≠ .refused r := by
  obtain ⟨body, hb, -⟩ := exec_eq_runCommand i s
  rw [hb]; exact runCommand_not_refused s _ body r

/-- Only CREATEH stops the model, at a seed cell the host has not written (R36). -/
theorem exec_fault {i : Instr} {s : State} {f : Fault} (h : exec i s = .fault f) :
    ∃ d j, i = .createh d ∧ f = .sinUnwritten j ∧ s.firstUnwritten s.sinlen.toNat = some j := by
  cases i <;> replace h := runCommand_fault h <;>
    simp only [withBit, Ending.require_eq_stop, reduceCtorEq, and_false] at h
  case createh d =>
    obtain ⟨-, -, h⟩ := h
    cases hj : s.firstUnwritten s.sinlen.toNat with
    | some j => simp only [hj, Ending.stop.injEq] at h; exact ⟨d, j, rfl, h.symm, rfl⟩
    | none => simp [hj, Ending.require_eq_stop] at h

end Sys2Proof.Machine
end

