-- ==== Sys2Proof/Laws/HostAccess.lean ====
section
/-! SUPPORT. Everything a host access, a command write and a step can do. -/

namespace Sys2Proof.Machine

/-- Two offsets have two host addresses, wherever the platform puts the block (R52). -/
theorem hostAddress_injective {x y : Offset} (h : hostAddress x = hostAddress y) : x = y := by
  unfold hostAddress at h
  exact BitVec.eq_of_toNat_eq (by omega)

/-- Where a place of the map is, for aligned offsets (R43). -/
theorem placeAt_cases (p : Params) (off : Nat) :
    (off = 0x000 ∧ placeAt p off = .cmd) ∨ (off = 0x004 ∧ placeAt p off = .arg) ∨
    (off = 0x008 ∧ placeAt p off = .result) ∨ (off = 0x00C ∧ placeAt p off = .status) ∨
    (off = 0x010 ∧ placeAt p off = .sinlen) ∨ (off = 0x014 ∧ placeAt p off = .soutlen) ∨
    (off = 0x018 ∧ placeAt p off = .config) ∨
    ((0x400000 ≤ off ∧ off < 0x400000 + 4 * p.sinCap) ∧ placeAt p off = .sin ((off - 0x400000) / 4)) ∨
    ((0x800000 ≤ off ∧ off < 0x800000 + 4 * p.soutCap) ∧ ¬ (0x400000 ≤ off ∧ off < 0x400000 + 4 * p.sinCap) ∧
      placeAt p off = .sout ((off - 0x800000) / 4)) ∨
    ((0x01C ≤ off ∨ off % 4 ≠ 0) ∧ ¬ (0x400000 ≤ off ∧ off < 0x400000 + 4 * p.sinCap) ∧
      ¬ (0x800000 ≤ off ∧ off < 0x800000 + 4 * p.soutCap) ∧ placeAt p off = .reserved) := by
  unfold placeAt
  repeat' split
  all_goals simp_all
  omega

/-- A read is no bus error exactly when R43, R44 and R49 allow it. -/
theorem readError_eq_none_iff (p : Params) (w : Nat) (off : Offset) :
    readError p w off = none ↔ ReadAllowed p w off := by
  unfold readError ReadAllowed
  have := placeAt_cases p off.toNat
  simp only [Params.sinCap, Params.soutCap] at this
  generalize placeAt p off.toNat = pl at this ⊢
  by_cases hw : w = 32
  · by_cases ha : off.toNat % 4 = 0
    · simp only [hw, ha, ne_eq, not_true_eq_false, if_false, true_and]
      rcases this with ⟨h, rfl⟩ | ⟨h, rfl⟩ | ⟨h, rfl⟩ | ⟨h, rfl⟩ | ⟨h, rfl⟩ | ⟨h, rfl⟩ | ⟨h, rfl⟩ | ⟨h, rfl⟩ |
        ⟨h, h', rfl⟩ | ⟨h, h', h'', rfl⟩ <;>
        simp only [Place.readable, reduceCtorEq, if_false, if_true, Bool.false_eq_true, true_iff, false_iff] <;> omega
    · simp [hw, ha]
  · simp [hw]

/-- A write is no bus error exactly when R43, R44 and R49 allow it. -/
theorem writeError_eq_none_iff (p : Params) (w : Nat) (off : Offset) :
    writeError p w off = none ↔ WriteAllowed p w off := by
  unfold writeError WriteAllowed
  have h0 : off = 0x000000 ↔ off.toNat = 0x000000 := by rw [BitVec.toNat_eq]; rfl
  have h4 : off = 0x000004 ↔ off.toNat = 0x000004 := by rw [BitVec.toNat_eq]; rfl
  have h16 : off = 0x000010 ↔ off.toNat = 0x000010 := by rw [BitVec.toNat_eq]; rfl
  have := placeAt_cases p off.toNat
  simp only [Params.sinCap, Params.soutCap] at this
  generalize placeAt p off.toNat = pl at this ⊢
  by_cases hw : w = 32
  · by_cases ha : off.toNat % 4 = 0
    · simp only [hw, ha, ne_eq, not_true_eq_false, if_false, true_and, h0, h4, h16]
      rcases this with ⟨h, rfl⟩ | ⟨h, rfl⟩ | ⟨h, rfl⟩ | ⟨h, rfl⟩ | ⟨h, rfl⟩ | ⟨h, rfl⟩ | ⟨h, rfl⟩ | ⟨h, rfl⟩ |
        ⟨h, h', rfl⟩ | ⟨h, h', h'', rfl⟩ <;>
        simp only [Place.writable, reduceCtorEq, if_false, if_true, Bool.false_eq_true, true_iff, false_iff] <;> omega
    · simp [hw, ha]
  · simp [hw]

/-- Everything a read can do: give the host the value at the place and change nothing else. -/
theorem hostRead_next {w : Nat} {off : Offset} {s t : State} (h : hostRead w off s = .next t) :
    readError s.params w off = none ∧ t = s.setReadData (s.readPlace (placeAt s.params off.toNat)) := by
  unfold hostRead at h
  split at h
  · simp at h
  · next he => exact ⟨he, by simpa using h.symm⟩

/-- A read stops only with the bus error it is. -/
theorem hostRead_fault {w : Nat} {off : Offset} {s : State} {f : Fault} (h : hostRead w off s = .fault f) :
    ∃ e, readError s.params w off = some e ∧ f = .busError e off := by
  unfold hostRead at h
  split at h
  · next e he => exact ⟨e, he, by simpa using h.symm⟩
  · simp at h

/-- A read is never refused. -/
theorem hostRead_not_refused (w : Nat) (off : Offset) (s : State) (r : Refusal) : hostRead w off s ≠ .refused r := by
  unfold hostRead; split <;> simp

/-- Everything a write can be: a command written to CMD, or a value written to ARG, to SINLEN or to one cell of SIN. -/
theorem hostWrite_cases (w : Nat) (off : Offset) (v : Word) (s : State) :
    (∃ e, writeError s.params w off = some e ∧ hostWrite w off v s = .fault (.busError e off)) ∨
    (w = 32 ∧ off = 0 ∧ hostWrite w off v s = performCommand v s) ∨
    (w = 32 ∧ off ≠ 0 ∧
      (hostWrite w off v s = .next (s.setArg v) ∨ hostWrite w off v s = .next (s.setSinlen v) ∨
      ∃ j < s.params.sinCap, hostWrite w off v s = .next (s.setSin j (v.setWidth 8)))) := by
  cases he : writeError s.params w off with
  | some e => exact .inl ⟨e, rfl, by simp [hostWrite, he]⟩
  | none =>
    right
    have ha := (writeError_eq_none_iff ..).mp he
    have hw := ha.1
    have h0 : off = 0 ↔ off.toNat = 0 := by simp [BitVec.toNat_eq]
    have hp := placeAt_cases s.params off.toNat
    have hr : (placeAt s.params off.toNat).writable = true := by
      unfold writeError at he
      cases h : (placeAt s.params off.toNat).writable with
      | true => rfl
      | false => repeat (first | split at he | simp_all)
    rw [ne_eq, h0]
    simp only [hostWrite, he]
    generalize placeAt s.params off.toNat = pl at hp hr ⊢
    rcases hp with ⟨h, rfl⟩ | ⟨h, rfl⟩ | ⟨h, rfl⟩ | ⟨h, rfl⟩ | ⟨h, rfl⟩ | ⟨h, rfl⟩ | ⟨h, rfl⟩ | ⟨h, rfl⟩ |
      ⟨h, h', rfl⟩ | ⟨h, h', h'', rfl⟩ <;> simp only [Place.writable, Bool.false_eq_true] at hr
    · exact .inl ⟨hw, h, rfl⟩
    · exact .inr ⟨hw, by omega, .inl rfl⟩
    · exact .inr ⟨hw, by omega, .inr (.inl rfl)⟩
    · exact .inr ⟨hw, by omega, .inr (.inr ⟨(off.toNat - 0x400000) / 4, by omega, rfl⟩)⟩

/-- Everything a command write can do: run the command it spells, or report that it spells none. -/
theorem performCommand_cases (c : Word) (s : State) :
    (∃ i, decode c = .ok i ∧ performCommand c s = exec i s.tick) ∨
    (∃ e, decode c = .error e ∧ performCommand c s = .next (s.tick.raise .illegalCommand)) := by
  unfold performCommand
  cases h : decode c with
  | ok i => exact .inl ⟨i, rfl, rfl⟩
  | error e => exact .inr ⟨e, rfl, rfl⟩

/-- A step with an input to come performs it, in the state in which it has arrived. -/
theorem step_of_pending {s : State} {x : Input} {rest : List Input} (h : s.pending = x :: rest) :
    step s = performInput x { s with pending := rest } := by
  simp [step, State.takeInput, h]

/-- A step with no input to come changes nothing. -/
theorem step_of_idle {s : State} (h : s.pending = []) : step s = .next s := by
  simp [step, State.takeInput, h]

/-- Where a command comes from: with the word placed as the host's next access, the step runs what the word decodes to. -/
theorem step_withFetchWord (s : State) (nbits w : Nat) :
    step (s.withFetchWord nbits w) =
      performCommand (BitVec.ofNat 32 (w % 2 ^ nbits)) { s with inReset := false } := by
  simp [State.withFetchWord, State.withCommand, step, State.takeInput, performInput, hostWrite, writeError, placeAt,
    Place.writable]

end Sys2Proof.Machine
end

