-- ==== Sys2Proof/Laws/Operands.lean ====
section
/-! SUPPORT. What the operand functions do, bit by bit: the mapper's mask, population count, the seed decoder, the hex digits
of a word. -/

namespace Sys2Proof.Machine

/-! ### The mapper -/

/-- A set top bit shifted down by `o` is the one bit of weight 31 - o. -/
theorem topBit_shift_getLsbD (o j : Nat) : (0x80000000#32 >>> o).getLsbD j = decide (o + j = 31) := by
  have : 0x80000000#32 = BitVec.twoPow 32 31 := by decide
  rw [BitVec.getLsbD_ushiftRight, this, BitVec.getLsbD_twoPow]
  by_cases h : o + j = 31 <;> simp [h, eq_comm (a := 31)]

/-- The offset field of an index is its remainder by 32. -/
theorem offset_eq (i : Word) : (i.extractLsb' 0 5).toNat = i.toNat % 32 := by simp [BitVec.extractLsb'_toNat]

/-- The word field of an index is its quotient by 32. -/
theorem wordIndex_eq (i : Word) : (i.extractLsb' 5 27).toNat = i.toNat / 32 := by
  rw [BitVec.extractLsb'_toNat, Nat.shiftRight_eq_div_pow, Nat.mod_eq_of_lt]
  have := i.isLt; omega

/-- The mapper's mask picks the bit of integer weight 31 - (i mod 32) (R10, R90). -/
theorem mapIndex_mask_getLsbD (i : Word) (len j : Nat) :
    (mapIndex i len).mask.getLsbD j = decide (j = 31 - i.toNat % 32) := by
  simp only [mapIndex, offset_eq, topBit_shift_getLsbD]
  congr 1; apply propext; omega

/-- A word under a one-bit mask is zero exactly when the bit is. -/
theorem and_mask_ne_zero {w m : Word} {p : Nat} (hp : p < 32) (hm : ∀ j < 32, m.getLsbD j = decide (j = p)) :
    w &&& m ≠ 0 ↔ w.getLsbD p = true := by
  constructor
  · intro h
    by_contra hb
    apply h
    apply BitVec.eq_of_getLsbD_eq
    intro j hj
    rw [BitVec.getLsbD_and, hm j hj]
    by_cases h : j = p <;> simp_all
  · intro h h0
    have := congrArg (fun x => x.getLsbD p) h0
    simp [hm p hp, h] at this

/-! ### Population count -/

/-- The number of places below `32 * n` with a property is the sum over 32-place blocks. -/
theorem countP_blocks (n : Nat) (f : Nat → Bool) :
    (List.range (32 * n)).countP f =
      ((List.range n).map fun q => (List.range 32).countP fun p => f (32 * q + p)).sum := by
  induction n with
  | zero => rfl
  | succ n ih =>
    rw [Nat.mul_succ, List.range_add, List.countP_append, ih, List.range_succ (n := n), List.map_append, List.sum_append,
      List.countP_map]
    simp [Function.comp_def]

/-- Counting from the other end of a word counts the same bits. -/
theorem popcount32_eq (w : Word) : popcount32 w = (List.range 32).countP fun o => w.getLsbD (31 - o) := by
  have : List.range 32 = ((List.range 32).map fun o => 31 - o).reverse := by decide
  rw [popcount32]
  conv_lhs => rw [this]
  rw [List.countP_reverse, List.countP_map]
  rfl

/-- The population count is the number of array bits that are 1 (R101). -/
theorem State.popcount_eq (s : State) (a : SlotNo) :
    s.popcount a = (List.range (32 * ((s.slot a).len / 32))).countP fun i => s.bit a i := by
  rw [countP_blocks, State.popcount]
  congr 1
  refine List.map_congr_left fun q _ => ?_
  rw [popcount32_eq]
  refine List.countP_congr fun o ho => ?_
  have := List.mem_range.mp ho
  simp only [State.bit, show (32 * q + o) / 32 = q by omega, show (32 * q + o) % 32 = o by omega]

/-- A list's count is at most the list's length, so the population count is at most the capacity. -/
theorem State.popcount_le (s : State) (a : SlotNo) : s.popcount a ≤ (s.slot a).len := by
  rw [State.popcount_eq]
  refine (List.countP_le_length).trans ?_
  rw [List.length_range]; omega

/-! ### Hex digits -/

/-- A hex digit's value is below 16 (R14). -/
theorem hexval_lt {c : Byte} (h : isHexDigit c = true) : hexval c < 16 := by
  simp only [isHexDigit, Bool.or_eq_true, Bool.and_eq_true, decide_eq_true_eq] at h
  unfold hexval
  split
  · omega
  · split <;> omega

/-- The digit of a value has that value (R14). -/
theorem hexval_hexchar {n : Nat} (h : n < 16) : hexval (hexchar n) = n := by
  revert n; decide

/-- Every digit the encoder writes is one the decoder accepts (R14, R82). -/
theorem isHexDigit_hexchar {n : Nat} (h : n < 16) : isHexDigit (hexchar n) = true := by
  revert n; decide

/-! ### The seed decoder -/

/-- Eight digits at their places, as one polynomial in 16. -/
theorem digits_horner (a b c d e f g h : Nat) :
    a * 2 ^ 28 + (b * 2 ^ 24 + (c * 2 ^ 20 + (d * 2 ^ 16 + (e * 2 ^ 12 + (f * 2 ^ 8 + (g * 2 ^ 4 + (h * 2 ^ 0 + 0))))))) =
      ((((((a * 16 + b) * 16 + c) * 16 + d) * 16 + e) * 16 + f) * 16 + g) * 16 + h := by
  ring

/-- The sum of eight digits, as one polynomial in 16. -/
theorem digits_sum (v : Nat → Nat) :
    ((List.range 8).map fun u => v u <<< (4 * (7 - u))).sum =
      ((((((v 0 * 16 + v 1) * 16 + v 2) * 16 + v 3) * 16 + v 4) * 16 + v 5) * 16 + v 6) * 16 + v 7 := by
  have e : List.range 8 = [0, 1, 2, 3, 4, 5, 6, 7] := rfl
  rw [← digits_horner, e]
  simp only [List.map_cons, List.map_nil, List.sum_cons, List.sum_nil, Nat.reduceSub, Nat.reduceMul]
  rw [Nat.shiftLeft_eq, Nat.shiftLeft_eq, Nat.shiftLeft_eq, Nat.shiftLeft_eq, Nat.shiftLeft_eq, Nat.shiftLeft_eq,
    Nat.shiftLeft_eq, Nat.shiftLeft_eq]

/-- The place of bit `p` of a sum of eight digits, each below 16, each at its place. -/
theorem digits_testBit (v : Nat → Nat) (hv : ∀ u < 8, v u < 16) (p : Nat) (hp : p < 32) :
    ((List.range 8).map fun u => v u <<< (4 * (7 - u))).sum.testBit p =
      (v (7 - p / 4)).testBit (p % 4) := by
  have key (x y p : Nat) (hy : y < 16) :
      (x * 16 + y).testBit p = if p < 4 then y.testBit p else x.testBit (p - 4) := by
    have := Nat.testBit_two_pow_mul_add x (i := 4) (b := y) (by simpa using hy) p
    rw [show 2 ^ 4 * x = x * 16 by omega] at this
    exact this
  rw [digits_sum]
  have h0 := hv 0 (by omega)
  have h1 := hv 1 (by omega)
  have h2 := hv 2 (by omega)
  have h3 := hv 3 (by omega)
  have h4 := hv 4 (by omega)
  have h5 := hv 5 (by omega)
  have h6 := hv 6 (by omega)
  have h7 := hv 7 (by omega)
  rw [key _ _ _ h7, key _ _ _ h6, key _ _ _ h5, key _ _ _ h4, key _ _ _ h3, key _ _ _ h2, key _ _ _ h1]
  interval_cases p <;> rfl

/-- The decoder's word, bit by bit: nibble `8q + u` of the padded text fills array bits `4(8q + u) ..` (R83). -/
theorem decodeWord_getLsbD (pad : Nat) (t : Nat → Byte) (q p : Nat) (hp : p < 32)
    (ht : ∀ k, 8 * q ≤ k → k < 8 * q + 8 → hexval (paddedChar pad t k) < 16) :
    (decodeWord pad t q).getLsbD p = (hexval (paddedChar pad t (8 * q + (7 - p / 4)))).testBit (p % 4) := by
  rw [decodeWord, BitVec.getLsbD_ofNat, digits_testBit (fun u => hexval (paddedChar pad t (8 * q + u)))
    (fun u hu => ht _ (by omega) (by omega)) p hp]
  simp [hp]

/-- A state whose seed has no unwritten cell: every cell of the seed has been written. -/
theorem State.firstUnwritten_eq_none {s : State} {n : Nat} :
    s.firstUnwritten n = none ↔ ∀ j < n, (s.sin.read? j).isSome = true := by
  simp [State.firstUnwritten, List.find?_eq_none, Option.isSome_iff_ne_none]

/-- The cell a CREATEH faults at is the first of the seed that has not been written. -/
theorem State.firstUnwritten_eq_some {s : State} {n j : Nat} :
    s.firstUnwritten n = some j ↔ j < n ∧ s.sin.read? j = none ∧ ∀ k < j, (s.sin.read? k).isSome = true := by
  rw [State.firstUnwritten, List.find?_eq_some_iff_getElem]
  constructor
  · rintro ⟨h, i, hi, he, hm⟩
    simp only [List.getElem_range] at he
    subst he
    refine ⟨by simpa using hi, by simpa using h, fun k hk => ?_⟩
    have := hm k hk
    simpa [Option.isSome_iff_ne_none] using this
  · rintro ⟨h, hn, hm⟩
    refine ⟨by simp [hn], j, by simpa using h, by simp, fun k hk => ?_⟩
    have := hm k hk
    simpa [Option.isSome_iff_ne_none] using this

end Sys2Proof.Machine
end

