-- ==== Sys2Proof/Laws/PerInstr.lean ====
section
/-! SUPPORT. Statements made per instruction. Family EncodedWord: the word the encoder gives a command is of the command's row
of the opcode map: under the row's mask it is the row's match (30_encoding.md R62), so every field the command does not use
is zero. -/

namespace Sys2Proof.Laws.EncodedWord

/-- The match and mask of a command's row (R62). -/
def row : Instr → Word × Word
  | .create _ => (0x10000000, 0xF0FFFFFF)
  | .createh _ => (0x20000000, 0xF0FFFFFF)
  | .get _ => (0x30000000, 0xFF0FFFFF)
  | .set _ _ => (0x40000000, 0xF0FF7FFF)
  | .toggle _ => (0x50000000, 0xF0FFFFFF)
  | .size _ => (0x60000000, 0xFF0FFFFF)
  | .count _ => (0x70000000, 0xFF0FFFFF)
  | .equals _ _ => (0x80000000, 0xFF00FFFF)
  | .copy _ _ => (0x90000000, 0xF00FFFFF)
  | .not _ => (0xA0000000, 0xF0FFFFFF)
  | .and _ _ _ => (0xB0000000, 0xF000FFFF)
  | .or _ _ _ => (0xC0000000, 0xF000FFFF)
  | .xor _ _ _ => (0xD0000000, 0xF000FFFF)
  | .tobin _ => (0xE0000000, 0xFF0FFFFF)
  | .tohex _ => (0xF0000000, 0xFF0FFFFF)

/-- The encoded word is of the command's row. -/
def Statement (i : Instr) : Prop := encode i &&& (row i).2 = (row i).1

/-- Bit by bit, from the fields of the word. -/
theorem of_fields (i : Instr) : Statement i := by
  apply BitVec.eq_of_getLsbD_eq
  intro k hk
  rw [BitVec.getLsbD_and]
  cases i <;> simp only [encode, row, assemble_getLsbD] <;> interval_cases k <;> simp

theorem create (d : SlotNo) : Statement (.create d) := of_fields _

theorem createh (d : SlotNo) : Statement (.createh d) := of_fields _

theorem get (a : SlotNo) : Statement (.get a) := of_fields _

theorem set (d : SlotNo) (v : Bool) : Statement (.set d v) := of_fields _

theorem toggle (d : SlotNo) : Statement (.toggle d) := of_fields _

theorem size (a : SlotNo) : Statement (.size a) := of_fields _

theorem count (a : SlotNo) : Statement (.count a) := of_fields _

theorem equals (a : SlotNo) (b : SlotNo) : Statement (.equals a b) := of_fields _

theorem copy (d : SlotNo) (a : SlotNo) : Statement (.copy d a) := of_fields _

theorem not (d : SlotNo) : Statement (.not d) := of_fields _

theorem and (d : SlotNo) (a : SlotNo) (b : SlotNo) : Statement (.and d a b) := of_fields _

theorem or (d : SlotNo) (a : SlotNo) (b : SlotNo) : Statement (.or d a b) := of_fields _

theorem xor (d : SlotNo) (a : SlotNo) (b : SlotNo) : Statement (.xor d a b) := of_fields _

theorem tobin (a : SlotNo) : Statement (.tobin a) := of_fields _

theorem tohex (a : SlotNo) : Statement (.tohex a) := of_fields _

end Sys2Proof.Laws.EncodedWord
end

