-- ==== Sys2Proof/Laws/Run.lean ====
section
/-! SUPPORT. Several steps, one at a time. -/

namespace Sys2Proof.Machine

/-- A step that takes a next state, then `k` more. -/
theorem run_succ_of_step {s t : State} (h : step s = .next t) (k : Nat) :
    Sys2Proof.core.run (k + 1) s = Sys2Proof.core.run k t := by
  have e : Sys2Proof.core.step s = .next t := h
  simp only [Host.Core.run, e]

/-- No step. -/
theorem run_zero (s : State) : Sys2Proof.core.run 0 s = .next s := rfl

end Sys2Proof.Machine
end

