-- ==== Sys2Proof/Tests/Slice0.lean ====
section
/-! SUPPORT. Tests: ill-formed terms, decoding of words written from the encodings of 30_encoding.md, single commands with the
results of 95_test_vectors.md, and a witness for the hypotheses of every statement. -/

namespace Sys2Proof.Tests

open Sys2Proof.Machine

/-! ### Helpers -/

/-- A valid 32-bit array per word list, in canonical form. -/
def array (ws : List Word) : Slot := ⟨true, 32 * ws.length, (List.range ws.length).zip ws⟩

/-- The reset state of the test parameters with these arrays in slots 0, 1, 2, ... -/
def block (slots : List Slot) (arg : Word := 0) : State :=
  (slots.zipIdx.foldl (fun s x => s.putSlot (BitVec.ofNat 4 x.2) x.1) State.reset).setArg arg

/-- The codes of "deadbeef" (95_test_vectors.md P1). -/
def deadbeef : List Byte := [0x64, 0x65, 0x61, 0x64, 0x62, 0x65, 0x65, 0x66]

/-- The reset state with a seed in SIN and SINLEN and a requested length in ARG. -/
def seeded (seed : List Byte) (arg : Word) : State :=
  { State.reset with sin := (List.range seed.length).zip seed, sinlen := BitVec.ofNat 32 seed.length, arg := arg }

/-- The next state, if the machine takes one. -/
def nextOf : Host.Outcome State Fault Refusal → Option State
  | .next t => some t
  | .fault _ => none
  | .refused _ => none

/-- The fault, if the machine stops with one. -/
def faultOf : Host.Outcome State Fault Refusal → Option Fault
  | .next _ => none
  | .fault f => some f
  | .refused _ => none

/-- What a test looks at after a command: CODE, RESULT and the written words of a slot. -/
def look (d : SlotNo) (o : Host.Outcome State Fault Refusal) : Option (Nat × Nat × List (Nat × Word)) :=
  (nextOf o).map fun t => (t.code.toNat, t.result.toNat, (t.slot d).words)

/-- What a test looks at after an encoder: CODE, SOUTLEN and the written SOUT cells. -/
def lookText (o : Host.Outcome State Fault Refusal) : Option (Nat × Nat × List Nat) :=
  (nextOf o).map fun t => (t.code.toNat, t.soutlen.toNat, t.sout.map fun c => c.2.toNat)

/-! ### Well-formedness: what the checks refuse -/

theorem test_params_no_slots_refused : Params.wf ⟨0, 2⟩ = false := by decide
theorem test_params_17_slots_refused : Params.wf ⟨17, 2⟩ = false := by decide
theorem test_params_no_words_refused : Params.wf ⟨4, 0⟩ = false := by decide
theorem test_params_65536_words_refused : Params.wf ⟨4, 65536⟩ = false := by decide
theorem test_params_bounds_accepted : Params.wf ⟨1, 1⟩ = true ∧ Params.wf ⟨16, 65535⟩ = true := by decide
theorem test_wf_slot_of_get_refused : Instr.wf ⟨4, 2⟩ (.get 5) = false := by decide
theorem test_wf_each_slot_field_checked :
    Instr.wf ⟨4, 2⟩ (.and 4 0 1) = false ∧ Instr.wf ⟨4, 2⟩ (.and 2 4 1) = false ∧
    Instr.wf ⟨4, 2⟩ (.and 2 0 4) = false ∧ Instr.wf ⟨4, 2⟩ (.and 3 0 1) = true := by decide

/-! ### Decoding: words written bit by bit from R62 -/

theorem test_decode_create : decode 0b00010111000000000000000000000000 = .ok (.create 7) := by decide
theorem test_decode_createh : decode 0b00101111000000000000000000000000 = .ok (.createh 15) := by decide
theorem test_decode_get : decode 0b00110000010100000000000000000000 = .ok (.get 5) := by decide
theorem test_decode_set_1 : decode 0b01000011000000001000000000000000 = .ok (.set 3 true) := by decide
theorem test_decode_set_0 : decode 0b01000001000000000000000000000000 = .ok (.set 1 false) := by decide
theorem test_decode_toggle : decode 0b01011000000000000000000000000000 = .ok (.toggle 8) := by decide
theorem test_decode_size : decode 0b01100000001000000000000000000000 = .ok (.size 2) := by decide
theorem test_decode_count : decode 0b01110000100100000000000000000000 = .ok (.count 9) := by decide
theorem test_decode_equals : decode 0b10000000001000110000000000000000 = .ok (.equals 2 3) := by decide
theorem test_decode_copy : decode 0b10010001001000000000000000000000 = .ok (.copy 1 2) := by decide
theorem test_decode_not : decode 0b10100110000000000000000000000000 = .ok (.not 6) := by decide
theorem test_decode_and : decode 0b10110010000000010000000000000000 = .ok (.and 2 0 1) := by decide
theorem test_decode_or : decode 0b11000001001000110000000000000000 = .ok (.or 1 2 3) := by decide
theorem test_decode_xor : decode 0b11010100100011000000000000000000 = .ok (.xor 4 8 12) := by decide
theorem test_decode_tobin : decode 0b11100000001100000000000000000000 = .ok (.tobin 3) := by decide
theorem test_decode_tohex : decode 0b11110000101000000000000000000000 = .ok (.tohex 10) := by decide

/-- The words of 95_test_vectors.md section 2.7 that spell no command. -/
theorem test_decode_illegal :
    decode 0x00000000 = .error .reservedOpcode ∧ decode 0x10000001 = .error (.unusedFieldNotZero 1) ∧
    decode 0x30008000 = .error (.unusedFieldNotZero 3) ∧ decode 0x31000000 = .error (.unusedFieldNotZero 3) ∧
    decode 0x4000C000 = .error (.unusedFieldNotZero 4) ∧ decode 0xB2010001 = .error (.unusedFieldNotZero 11) ∧
    decode 0x81010000 = .error (.unusedFieldNotZero 8) := by decide

/-- R68: the encoder gives the spec's own words. -/
theorem test_encode :
    encode (.and 2 0 1) = 0xB2010000 ∧ encode (.set 3 true) = 0x43008000 ∧ encode (.get 5) = 0x30500000 := by decide

/-! ### Single commands (95_test_vectors.md section 2) -/

theorem test_create_rounds_up :
    look 1 (exec (.create 1) (block [] 40)) = some (0, 0, [(0, 0), (1, 0)]) := by decide
theorem test_create_over_capacity : look 0 (exec (.create 0) (block [] 65)) = some (5, 0, []) := by decide
theorem test_createh_deadbeef :
    look 0 (exec (.createh 0) (seeded deadbeef 32)) = some (0, 0, [(0, 0xDEADBEEF)]) := by decide
theorem test_createh_left_pads :
    look 0 (exec (.createh 0) (seeded [0x31, 0x32, 0x33, 0x34, 0x35, 0x36, 0x37, 0x38, 0x39] 33)) =
      some (0, 0, [(0, 0x00000001), (1, 0x23456789)]) := by decide
theorem test_createh_upper_case :
    look 0 (exec (.createh 0) (seeded [0x41, 0x62, 0x43] 8)) = some (0, 0, [(0, 0x00000ABC)]) := by decide
theorem test_createh_overflow_before_bad_digit :
    look 0 (exec (.createh 0) (seeded [0x31, 0x32, 0x33, 0x34, 0x35, 0x36, 0x37, 0x38, 0x67] 32)) =
      some (2, 0, []) := by decide
theorem test_createh_bad_digit : look 0 (exec (.createh 0) (seeded [0x67] 32)) = some (4, 0, []) := by decide
theorem test_createh_unwritten_cell :
    faultOf (exec (.createh 0) { seeded [0x31] 32 with sinlen := 3 }) = some (.sinUnwritten 1) := by decide
theorem test_get_msb_first :
    look 0 (exec (.get 0) (block [array [0xDEADBEEF]] 2)) = some (0, 0, [(0, 0xDEADBEEF)]) ∧
    look 0 (exec (.get 0) (block [array [0xDEADBEEF]] 3)) = some (0, 1, [(0, 0xDEADBEEF)]) := by decide
theorem test_get_unallocated_before_index : look 1 (exec (.get 1) (block [] 100)) = some (7, 0, []) := by decide
theorem test_set_last_bit :
    look 0 (exec (.set 0 true) (block [array [0, 0]] 63)) = some (0, 0, [(0, 0), (1, 1)]) := by decide
theorem test_set_clears_first_bit :
    look 1 (exec (.set 1 false) (block [array [0xDEADBEEF], array [0xDEADBEEF]] 0)) =
      some (0, 0, [(0, 0x5EADBEEF)]) := by decide
theorem test_toggle_second_word :
    look 0 (exec (.toggle 0) (block [array [0, 0]] 33)) = some (0, 0, [(0, 0), (1, 0x40000000)]) := by decide
theorem test_toggle_out_of_range :
    look 0 (exec (.toggle 0) (block [array [0, 0]] 0xFFFFFFFF)) = some (1, 0, [(0, 0), (1, 0)]) := by decide
theorem test_size : look 2 (exec (.size 2) (block [array [], array [], array [0, 0]])) =
    some (0, 64, [(0, 0), (1, 0)]) := by decide
theorem test_count : look 0 (exec (.count 0) (block [array [0xDEADBEEF]])) = some (0, 24, [(0, 0xDEADBEEF)]) := by
  decide
theorem test_equals_different_capacity :
    look 0 (exec (.equals 0 1) (block [array [0xFF], array [0, 0xFF]])) = some (0, 0, [(0, 0xFF)]) := by decide
theorem test_equals_empty : look 1 (exec (.equals 0 1) (block [array [], array []])) = some (0, 1, []) := by decide
theorem test_copy :
    look 1 (exec (.copy 1 0) (block [array [0xDEADBEEF]])) = some (0, 0, [(0, 0xDEADBEEF)]) := by decide
theorem test_copy_unallocated_source : look 0 (exec (.copy 0 1) (block [array [5]])) = some (7, 0, [(0, 5)]) := by
  decide
theorem test_not : look 0 (exec (.not 0) (block [array [0xF]])) = some (0, 0, [(0, 0xFFFFFFF0)]) := by decide
theorem test_and :
    look 2 (exec (.and 2 0 1) (block [array [0x0000C0FF, 0xEEC0FFEE], array [0xFFFFFFFF, 0xFF000000]])) =
      some (0, 0, [(0, 0x0000C0FF), (1, 0xEE000000)]) := by decide
theorem test_and_mismatch :
    look 2 (exec (.and 2 0 1) (block [array [1, 2], array [3]])) = some (3, 0, []) := by decide
theorem test_or :
    look 2 (exec (.or 2 0 1) (block [array [0xF0F0F0F0], array [0x0000FFFF]])) = some (0, 0, [(0, 0xF0F0FFFF)]) := by
  decide
theorem test_xor :
    look 2 (exec (.xor 2 0 1) (block [array [0xF0F0F0F0], array [0x0000FFFF]])) = some (0, 0, [(0, 0xF0F00F0F)]) := by
  decide
theorem test_xor_self_clears :
    look 0 (exec (.xor 0 0 0) (block [array [0x12345678]])) = some (0, 0, [(0, 0)]) := by decide
/-- The text of 0xA0000001 by R121 (as the row 0x80000001 of section 2.6, with array bit 2 set). -/
theorem test_tobin :
    lookText (exec (.tobin 0) (block [array [0xA0000001]])) =
      some (0, 32, [0x31, 0x30, 0x31] ++ List.replicate 28 0x30 ++ [0x31]) := by decide
theorem test_tohex :
    lookText (exec (.tohex 0) (block [array [0x0123ABCD]])) =
      some (0, 8, [0x30, 0x31, 0x32, 0x33, 0x61, 0x62, 0x63, 0x64]) := by decide
theorem test_slot_not_on_block : look 0 (exec (.get 5) (block [array [0]])) = some (6, 0, [(0, 0)]) := by decide

/-! ### Steps and host accesses -/

/-- A command placed as the host's next access is what the next step runs. -/
theorem test_step_runs_command :
    (nextOf (step (State.reset.withFetchWord 32 0x10000000))).map (fun t => ((t.slot 0).valid, t.cc, t.pending)) =
      some (true, 1, []) := by decide
/-- CONFIG with NSLOT 4 and MAXW 2, by the layout of R31. -/
theorem test_read_config :
    (nextOf (hostRead 32 0x18 State.reset)).map (·.readData) = some (some 0x00020004) := by decide
/-- STATUS after an error of code 3, by the layout of R26. -/
theorem test_read_status :
    (nextOf (hostRead 32 0x0C (State.reset.raise .capacityMismatch))).map (·.readData) = some (some 0x00000103) := by
  decide
theorem test_write_sin :
    (nextOf (hostWrite 32 0x400004 0xABCDEF66 State.reset)).map (·.sin) = some [(1, 0x66)] := by decide
theorem test_bus_errors :
    faultOf (hostRead 32 0x000 State.reset) = some (.busError .notReadable 0x000) ∧
    faultOf (hostWrite 32 0x008 0 State.reset) = some (.busError .notWritable 0x008) ∧
    faultOf (hostRead 32 0x01C State.reset) = some (.busError .reservedOffset 0x01C) ∧
    faultOf (hostRead 32 0x006 State.reset) = some (.busError .misaligned 0x006) ∧
    faultOf (hostRead 8 0x004 State.reset) = some (.busError .wrongWidth 0x004) := by decide
theorem test_access_in_reset_has_no_effect :
    nextOf (step { State.reset with pending := [.write 32 0x004 7], inReset := true }) =
      some { State.reset with inReset := true } := by decide

/-- The examples of R68. -/
theorem test_asm_text :
    (Instr.and 2 0 1).asmText = "AND s2, s0, s1" ∧ (Instr.set 3 true).asmText = "SET s3, 1" ∧
    (Instr.get 15).asmText = "GET s15" := by decide
/-- `NEWH s1, #8, "ab"` as R69 and R70 expand it. -/
theorem test_newh_inputs :
    (Pseudo.newh 1 8 [0x61, 0x62]).expand.flatMap Line.inputs =
      [.write 32 0x400000 0x61, .write 32 0x400004 0x62, .write 32 0x10 2, .write 32 0x04 8,
       .write 32 0x00 0x21000000] := by decide

/-! ### Witnesses: states and operands that meet the hypotheses of the statements -/

theorem test_witness_EncodeDecode : decode 0xB2010000 = .ok (.and 2 0 1) := by decide
theorem test_witness_OpcodeMap :
    ∃ r ∈ commandRows, (0xF0F00000 : Word) &&& r.mask = r.pattern ∧ r.build 0xF0F00000 = .tohex 15 :=
  ⟨commandRows[14], by simp [commandRows], by decide, by decide⟩
/-- The three ways of R63: OP 0, a field not used, a slot that is NSLOT or more. -/
theorem test_witness_IllegalWord :
    ((0x0FFFFFFF : Word).extractLsb' 28 4 = 0) ∧
    (∃ r ∈ commandRows, r.pattern.extractLsb' 28 4 = (0x10000001 : Word).extractLsb' 28 4 ∧
      (0x10000001 : Word) &&& r.mask ≠ r.pattern) ∧
    (decode 0x30400000 = .ok (.get 4) ∧ (4 : SlotNo) ∈ (Instr.get 4).slots ∧
      State.reset.params.nslot ≤ (4 : SlotNo).toNat) :=
  ⟨by decide, ⟨commandRows[0], by simp [commandRows], by decide, by decide⟩, by decide⟩
theorem test_witness_StepRunsCommand :
    State.reset.inReset = false ∧
    ({ State.reset with pending := [.write 32 0 0x60000000] } : State).pending = .write 32 0 0x60000000 :: [] ∧
    decode 0x60000000 = .ok (.size 0) := by decide
theorem test_witness_StepTakesOneInput :
    State.reset.pending = [] ∧
    (nextOf (step { State.reset with pending := [.releaseReset, .applyReset] })).isSome = true ∧
    State.reset.inReset = false ∧
    ({ State.reset with pending := [.read 32 0x8000FC] } : State).pending = .read 32 0x8000FC :: [] ∧
    ({ State.reset with pending := [.write 16 0x05 7] } : State).pending = .write 16 0x05 7 :: [] := by decide
/-- Legal parameters, and the first and last cells of both windows, written and not. -/
theorem test_witness_HostPrimitives :
    State.reset.params.wf = true ∧ 0 < 8 * State.reset.params.maxw ∧ 15 < 8 * State.reset.params.maxw ∧
    63 < 32 * State.reset.params.maxw ∧ ¬ WriteAllowed State.reset.params 32 0x18 ∧
    ¬ ReadAllowed State.reset.params 32 0x00 ∧
    ({ State.reset with sin := [(15, 0x66)] } : State).sin.read? 15 = some 0x66 ∧
    ({ State.reset with sout := [(0, 0x31), (63, 0x30)] } : State).sout.read? 63 = some 0x30 ∧
    State.reset.sin.read? 0 = none ∧ State.reset.sout.read? 0 = none := by decide
/-- Both sides of each boundary: the last SIN cell and the offset after it, the last SOUT cell and the offset after it. -/
theorem test_witness_BusErrors_read :
    ReadAllowed ⟨4, 2⟩ 32 0x40003C ∧ ¬ ReadAllowed ⟨4, 2⟩ 32 0x400040 ∧
    ReadAllowed ⟨4, 2⟩ 32 0x8000FC ∧ ¬ ReadAllowed ⟨4, 2⟩ 32 0x800100 ∧
    ReadAllowed ⟨4, 2⟩ 32 0x18 ∧ ¬ ReadAllowed ⟨4, 2⟩ 32 0x1C := by decide
theorem test_witness_BusErrors_write :
    WriteAllowed ⟨4, 2⟩ 32 0x40003C ∧ (0x40003C : Offset) ≠ 0 ∧ ¬ WriteAllowed ⟨4, 2⟩ 32 0x400040 ∧
    ¬ WriteAllowed ⟨4, 2⟩ 16 0x04 ∧ ¬ WriteAllowed ⟨4, 2⟩ 32 0x05 := by decide
theorem test_witness_ReadsHaveNoSideEffect : (nextOf (hostRead 32 0x08 State.reset)).isSome = true := by decide
theorem test_witness_WritesAreIdempotent :
    (0x10 : Offset) ≠ 0 ∧ (nextOf (hostWrite 32 0x10 5 State.reset)).isSome = true := by decide
theorem test_witness_ResetInput :
    ({ State.reset with pending := [.applyReset] } : State).pending = .applyReset :: [] ∧
    (({ State.reset with pending := [.read 32 4], inReset := true } : State).inReset = true ∧
      Input.read 32 4 ≠ .applyReset ∧ Input.read 32 4 ≠ .releaseReset) ∧
    ({ State.reset with pending := [.releaseReset] } : State).pending = .releaseReset :: [] ∧
    (nextOf (step { State.reset with pending := [.read 32 4] })).isSome = true := by decide
/-- A seed that fills SIN. -/
theorem test_witness_SeedLine :
    State.reset.params.wf = true ∧ State.reset.inReset = false ∧
    (deadbeef ++ deadbeef).length = 8 * State.reset.params.maxw ∧
    ({ State.reset with pending := (Line.seed (deadbeef ++ deadbeef)).inputs } : State).pending =
      (Line.seed (deadbeef ++ deadbeef)).inputs ++ [] := by decide
theorem test_witness_ConfigConstant :
    (nextOf (step (State.reset.withFetchWord 32 0x10000000))).isSome = true ∧ State.reset.params.wf = true := by decide
theorem test_witness_StickyUntilReset :
    (nextOf (step ((State.reset.raise .illegalCommand).withCommand 0x10000000))).isSome = true ∧
    ((State.reset.raise .illegalCommand).withCommand 0x10000000).sticky = true ∧
    ((State.reset.raise .illegalCommand).withCommand 0x10000000).pending.head? ≠ some .applyReset := by decide
/-- A fault of each kind. -/
theorem test_witness_WhatStopsAStep :
    faultOf (step { State.reset with pending := [.read 32 0] }) = some (.busError .notReadable 0) ∧
    faultOf (step { State.reset with pending := [.write 32 8 0] }) = some (.busError .notWritable 8) ∧
    faultOf (step ({ State.reset with sinlen := 8, arg := 32 }.withCommand 0x20000000)) = some (.sinUnwritten 0) := by
  decide
theorem test_witness_StepKeepsInv :
    State.reset.Inv ∧ (nextOf (step State.reset)).isSome = true :=
  ⟨⟨by decide, by decide, by decide, by decide, by decide, by decide, by decide, by decide, by decide⟩, by decide⟩
/-- The invariant holds in a state with an array, a result, a text and an error behind it. -/
theorem test_witness_Inv_in_use :
    State.Inv { (block [array [0xDEADBEEF], array []] 31) with
      result := 1, code := 2, sticky := true, sin := [(0, 0x66)], sinlen := 1, sout := [(0, 0x66), (1, 0x30)],
      soutlen := 2, cc := 5 } :=
  ⟨by decide, by decide, by decide, by decide, by decide, by decide, by decide, by decide, by decide⟩
theorem test_witness_ResetInv : Params.wf ⟨1, 1⟩ = true ∧ Params.wf ⟨16, 65535⟩ = true := by decide
theorem test_witness_CommandsKeepOperands :
    (nextOf (exec (.toggle 0) (block [array [0]] 31))).isSome = true ∧
    (nextOf (exec (.createh 3) (seeded deadbeef 64))).isSome = true := by decide
theorem test_witness_ErrorsArePrecise :
    (nextOf (performCommand 0xA0000001 State.reset)).map (·.code) = some 6 ∧ (6 : BitVec 4) ≠ 0 := by decide
/-- A command that succeeds and one that does not. -/
theorem test_witness_StatusAndCounter :
    (nextOf (performCommand 0x10000000 State.reset)).map (·.code) = some 0 ∧
    (nextOf (performCommand 0x70000000 State.reset)).map (·.code) = some 7 := by decide
/-- Every error with a state in which it is the first, the last being the case in which none holds. -/
theorem test_witness_FirstError_index :
    (Instr.get 0).errors = [6, 7] ++ 1 :: [] ∧
    State.reset.params.nslot = 4 ∧ ((block [array [0]] 32).slot 0).valid = true ∧
    ((block [array [0]] 32).slot 0).len ≤ (block [array [0]] 32).arg.toNat := by decide
theorem test_witness_FirstError_seed :
    (Instr.createh 0).errors = [6, 5, 2] ++ 4 :: [] ∧
    (∀ j < (seeded [0x67] 32).sinlen.toNat, ((seeded [0x67] 32).sin.read? j).isSome = true) ∧
    roundcap (seeded [0x67] 32).arg.toNat ≤ 64 ∧ ¬ roundcap (seeded [0x67] 32).arg.toNat < 4 * 1 ∧
    isHexDigit 0x67 = false ∧ (seeded [0x67] 32).sin.read? 0 = some 0x67 := by decide
theorem test_witness_FirstError_others :
    (Instr.createh 0).errors = [6] ++ 5 :: [2, 4] ∧ 64 < roundcap (block [] 65).arg.toNat ∧
    (Instr.createh 0).errors = [6, 5] ++ 2 :: [4] ∧ roundcap 32 < 4 * 9 ∧
    (Instr.and 2 0 1).errors = [6, 7] ++ 3 :: [] ∧
    ((block [array [1, 2], array [3]]).slot 0).len ≠ ((block [array [1, 2], array [3]]).slot 1).len ∧
    (Instr.size 1).errors = [6] ++ 7 :: [] ∧ ((block [array [0]]).slot 1).valid = false ∧
    (Instr.size 4).errors = [] ++ 6 :: [7] ∧ State.reset.params.nslot ≤ (4 : SlotNo).toNat := by decide
theorem test_witness_FirstError_none :
    State.reset.params.nslot = 4 ∧ ((block [array [0]] 31).slot 0).valid = true ∧
    ¬ ((block [array [0]] 31).slot 0).len ≤ (block [array [0]] 31).arg.toNat := by decide
theorem test_witness_ResultWriters :
    (nextOf (exec (.not 0) (block [array [0]]))).isSome = true ∧ (∀ a, Instr.not 0 ≠ .get a) ∧
    (∀ a, Instr.not 0 ≠ .size a) ∧ (∀ a, Instr.not 0 ≠ .count a) ∧ (∀ a b, Instr.not 0 ≠ .equals a b) := by
  refine ⟨by decide, ?_, ?_, ?_, ?_⟩ <;> intros <;> simp
theorem test_witness_TextWriters :
    (nextOf (exec (.not 0) (block [array [0]]))).isSome = true ∧ (∀ a, Instr.not 0 ≠ .tobin a) ∧
    (∀ a, Instr.not 0 ≠ .tohex a) := by
  refine ⟨by decide, ?_, ?_⟩ <;> intros <;> simp
theorem test_witness_SlotWriters :
    (nextOf (exec (.toggle 0) (block [array [0]] 31))).isSome = true ∧ (Instr.toggle 0).target ≠ some 1 ∧
    (Instr.toggle 0 = .toggle 0) := by decide
theorem test_witness_CapacityRounding :
    (0 : SlotNo).toNat < State.reset.params.nslot ∧ 32 * State.reset.params.maxw < roundcap (65 : Word).toNat := by
  decide
/-- The greatest request that fits and the least that does not; the last slot of the block and the first that is not. -/
theorem test_witness_CreateEffect :
    (3 : SlotNo).toNat < (block [] 64).params.nslot ∧ roundcap (block [] 64).arg.toNat ≤ 32 * (block [] 64).params.maxw ∧
    32 * (block [] 65).params.maxw < roundcap (block [] 65).arg.toNat ∧
    (block [] 64).params.nslot ≤ (4 : SlotNo).toNat := by decide
/-- A seed of exact width, and each error at its boundary. -/
theorem test_witness_CreatehEffect :
    (3 : SlotNo).toNat < (seeded deadbeef 32).params.nslot ∧
    roundcap (seeded deadbeef 32).arg.toNat ≤ 32 * (seeded deadbeef 32).params.maxw ∧
    4 * (seeded deadbeef 32).sinlen.toNat = roundcap (seeded deadbeef 32).arg.toNat ∧
    (∀ j < (seeded deadbeef 32).sinlen.toNat,
      (seeded deadbeef 32).sin.read? j = some (deadbeef.getD j 0) ∧ isHexDigit (deadbeef.getD j 0) = true) ∧
    (seeded deadbeef 32).params.nslot ≤ (4 : SlotNo).toNat ∧
    32 * (seeded deadbeef 65).params.maxw < roundcap (seeded deadbeef 65).arg.toNat ∧
    roundcap (seeded [0x30] 0).arg.toNat < 4 * (seeded [0x30] 0).sinlen.toNat ∧
    ((∀ j < (seeded [0x2F] 32).sinlen.toNat, ((seeded [0x2F] 32).sin.read? j).isSome = true) ∧
      (seeded [0x2F] 32).sin.read? 0 = some 0x2F ∧ isHexDigit 0x2F = false) := by decide
theorem test_witness_SeedOverflow :
    4 * (seeded [0x30] 0).sinlen.toNat > roundcap (seeded [0x30] 0).arg.toNat ∧
    4 * (seeded deadbeef 32).sinlen.toNat ≤ roundcap (seeded deadbeef 32).arg.toNat ∧
    (nextOf (exec (.createh 0) (seeded deadbeef 32))).isSome = true := by decide
theorem test_witness_CreatehUnwrittenCell :
    let s := { seeded [0x31] 32 with sinlen := 8 }
    (0 : SlotNo).toNat < s.params.nslot ∧ roundcap s.arg.toNat ≤ 32 * s.params.maxw ∧
    4 * s.sinlen.toNat ≤ roundcap s.arg.toNat ∧ 1 < s.sinlen.toNat ∧ s.sin.read? 1 = none ∧
    ∀ k < 1, (s.sin.read? k).isSome = true := by decide
theorem test_witness_EmptySeed : (block [] 33).sinlen = 0 := by decide
/-- Every digit class at its ends. -/
theorem test_witness_HexDigits :
    isHexDigit 0x30 ∧ isHexDigit 0x39 ∧ isHexDigit 0x41 ∧ isHexDigit 0x46 ∧ isHexDigit 0x61 ∧ isHexDigit 0x66 ∧
    hexval 0x39 = 9 ∧ hexval 0x46 = 15 ∧ hexval 0x61 = 10 := by decide
theorem test_witness_Mapper :
    (mapIndex 63 64).inRange = true ∧ (mapIndex 63 64).wordIndex = 1 ∧ (mapIndex 63 64).mask = 1 ∧ 64 % 32 = 0 ∧
    (mapIndex 64 64).inRange = false ∧ (mapIndex 32 64).mask = 0x80000000 := by decide
/-- For GetEffect, SetEffect, ToggleEffect, RangeCheck and BitLaws: the last index, the index after it, an empty slot, a slot not on the block. -/
theorem test_witness_bit_access :
    let s := block [array [1, 2]] 63
    let s' := block [array [1, 2]] 64
    (0 : SlotNo).toNat < s.params.nslot ∧ (s.slot 0).valid = true ∧ s.arg.toNat < (s.slot 0).len ∧
    (s'.slot 0).valid = true ∧ (s'.slot 0).len ≤ s'.arg.toNat ∧ (s.slot 1).valid = false ∧
    s.params.nslot ≤ (4 : SlotNo).toNat := by decide
/-- For SizeEffect, CountEffect, NotEffect, TobinEffect, TohexEffect and CountIsOnesOfText: a valid slot, an empty slot, a slot not on the block. -/
theorem test_witness_one_source :
    let s := block [array [], array [], array [], array [7]]
    let s' := block [array [7]]
    (3 : SlotNo).toNat < s.params.nslot ∧ (s.slot 3).valid = true ∧ (s.slot 3).len % 32 = 0 ∧
    (s'.slot 3).valid = false ∧ s.params.nslot ≤ (4 : SlotNo).toNat := by decide
/-- For EqualsEffect: equal arrays, unequal words, unequal capacities, an empty slot, a slot not on the block. -/
theorem test_witness_EqualsEffect :
    let s := block [array [7], array [7], array [8]]
    let s' := block [array [7], array [7, 7]]
    ((s.slot 0).len = (s.slot 1).len ∧ ∀ q < (s.slot 0).len / 32, s.word 0 q = s.word 1 q) ∧
    ((s.slot 0).len = (s.slot 2).len ∧ s.word 0 0 ≠ s.word 2 0) ∧
    ((s'.slot 0).len ≠ (s'.slot 1).len ∧ (s'.slot 1).valid = true) ∧
    ((s.slot 0).valid = true ∧ (s.slot 1).valid = true ∧ (s.slot 2).valid = true ∧ (s.slot 3).valid = false) ∧
    s.params.nslot ≤ (4 : SlotNo).toNat := by decide
/-- For CopyEffect and EqualityLaws: a valid source, an empty one, a slot not on the block, a slot of another capacity. -/
theorem test_witness_CopyEffect :
    let s := block [array [7], array [7, 7]]
    (1 : SlotNo).toNat < s.params.nslot ∧ (0 : SlotNo).toNat < s.params.nslot ∧ (s.slot 0).valid = true ∧
    (s.slot 2).valid = false ∧ s.params.nslot ≤ (4 : SlotNo).toNat ∧
    ((s.slot 1).valid = true ∧ (s.slot 1).len ≠ (s.slot 0).len) := by decide
/-- For AndEffect, OrEffect, XorEffect and LaneSemantics: operands of one capacity, of two, an empty one, a slot not on the block. -/
theorem test_witness_binary :
    let s := block [array [7], array [9], array [7, 7]]
    (∀ x ∈ ([3, 0, 1] : List SlotNo), x.toNat < s.params.nslot) ∧ (s.slot 0).valid = true ∧ (s.slot 1).valid = true ∧
    (s.slot 0).len = (s.slot 1).len ∧ ((s.slot 2).valid = true ∧ (s.slot 0).len ≠ (s.slot 2).len) ∧
    (s.slot 3).valid = false ∧ (∃ x ∈ ([4, 0, 1] : List SlotNo), s.params.nslot ≤ x.toNat) := by decide
theorem test_witness_SeedRoundTrip :
    (0 : SlotNo).toNat < (seeded [0x41, 0x62] 20).params.nslot ∧
    roundcap (seeded [0x41, 0x62] 20).arg.toNat ≤ 32 * (seeded [0x41, 0x62] 20).params.maxw ∧
    4 * (seeded [0x41, 0x62] 20).sinlen.toNat ≤ roundcap (seeded [0x41, 0x62] 20).arg.toNat ∧
    (∀ j < (seeded [0x41, 0x62] 20).sinlen.toNat,
      (seeded [0x41, 0x62] 20).sin.read? j = some (([0x41, 0x62] : List Byte).getD j 0) ∧
      isHexDigit (([0x41, 0x62] : List Byte).getD j 0) = true) := by decide

end Sys2Proof.Tests
end

section
/-! PROOFS. The hex digits (00_scope.md R14, R82). -/

namespace Sys2Proof.Machine

/-- Settles O33: the ranges are the definition's, and the sixteen values are computed. -/
theorem hexDigits : Obligations.HexDigits := by
  refine ⟨fun c => ?_, by decide, by decide⟩
  simp [isHexDigit, or_assoc]

end Sys2Proof.Machine
end

section
/-! PROOFS. The invariant, kept by every operation of the machine and so by every step: one lemma for each write to the
state, then one for each of the layers command, host access, input and step. -/

namespace Sys2Proof.Machine

/-- The word an index in range falls in is a word of the array (R90). -/
theorem mapIndex_wordIndex_lt {i : Word} {len : Nat} (hmod : len % 32 = 0) (hi : i.toNat < len) :
    (mapIndex i len).wordIndex < len / 32 := by
  simp only [mapIndex, wordIndex_eq]
  omega

/-! ### What the invariant says of slots and registers -/

section
variable {s : State} {a : SlotNo}

/-- The check of a single source slot. -/
@[simp] theorem State.allValid_singleton : s.allValid [a] = (s.slot a).valid := by simp [State.allValid]

/-- The check of two source slots. -/
@[simp] theorem State.allValid_pair {b : SlotNo} :
    s.allValid [a, b] = true ↔ (s.slot a).valid = true ∧ (s.slot b).valid = true := by simp [State.allValid]

/-- A valid slot is on the block (log 10). -/
theorem State.Inv.validSlot_lt (h : s.Inv) (hv : (s.slot a).valid = true) : a.toNat < s.params.nslot :=
  let ⟨_, _, hok⟩ := h.slots a
  (hok hv).1

/-- The capacity of a valid slot is a multiple of 32 and at most MAXBITS (R22(a)). -/
theorem State.Inv.capacity (h : s.Inv) (hv : (s.slot a).valid = true) :
    (s.slot a).len % 32 = 0 ∧ (s.slot a).len ≤ 32 * s.params.maxw :=
  let ⟨_, _, hok⟩ := h.slots a
  let ⟨_, hmod, hle, _⟩ := hok hv
  ⟨hmod, hle⟩

/-- MAXW is at least 1, and MAXBITS fits a host register (R7). -/
theorem State.Inv.maxw_bounds (h : s.Inv) : 1 ≤ s.params.maxw ∧ 32 * s.params.maxw < 2 ^ 32 := by
  have hp := h.params
  simp only [Params.wf, Bool.and_eq_true, decide_eq_true_eq] at hp
  omega

/-- A number of at most MAXBITS is itself in a host register. -/
theorem State.Inv.toNat_ofNat_of_le (h : s.Inv) {n : Nat} (hn : n ≤ 32 * s.params.maxw) :
    (BitVec.ofNat 32 n).toNat = n := by
  have := h.maxw_bounds
  rw [BitVec.toNat_ofNat, Nat.mod_eq_of_lt (by omega)]

/-- A truth value is in the bounds of RESULT. -/
theorem State.Inv.flag_le (h : s.Inv) (p : Prop) [Decidable p] :
    (if p then 1 else 0 : Word).toNat ≤ 32 * s.params.maxw := by
  have := h.maxw_bounds
  split
  · simp; omega
  · simp

end

/-! ### Writes that a block outside reset makes -/

/-- The reset clause of the invariant asks nothing of a state outside reset. -/
theorem State.reset_clause_of_released {s : State} {clause : Prop} (released : s.inReset = false) :
    s.inReset = true → clause :=
  fun applied => nomatch released.symm.trans applied

section
variable {s : State} (h : s.Inv) (released : s.inReset = false)
include h released

theorem State.Inv.tick : s.tick.Inv := { h with reset := State.reset_clause_of_released released }

theorem State.Inv.setArg (w : Word) : (s.setArg w).Inv := { h with reset := State.reset_clause_of_released released }

theorem State.Inv.setSinlen (w : Word) : (s.setSinlen w).Inv :=
  { h with reset := State.reset_clause_of_released released }

theorem State.Inv.setReadData (w : Word) : (s.setReadData w).Inv :=
  { h with reset := State.reset_clause_of_released released }

theorem State.Inv.succeed : s.succeed.Inv :=
  { h with
    code := by simp
    sticky := fun hc => absurd rfl hc
    reset := State.reset_clause_of_released released }

theorem State.Inv.raise (e : ErrorCode) : (s.raise e).Inv :=
  { h with
    code := e.code_range.2
    sticky := fun _ => rfl
    reset := State.reset_clause_of_released released }

theorem State.Inv.setResult {w : Word} (hw : w.toNat ≤ 32 * s.params.maxw) : (s.setResult w).Inv :=
  { h with
    result := hw
    reset := State.reset_clause_of_released released }

theorem State.Inv.setSin {j : Nat} (hj : j < s.params.sinCap) (c : Byte) : (s.setSin j c).Inv :=
  { h with
    sin := ⟨Memory.wf_write h.sin.1 j c, Memory.below_write h.sin.2 hj c⟩
    reset := State.reset_clause_of_released released }

/-- SOUT stays in bounds, and the text that SOUTLEN announces is the one just filled in (R120). -/
theorem State.Inv.putText {n : Nat} (hn : n ≤ 32 * s.params.maxw) (f : Nat → Byte) : (s.putText n f).Inv :=
  { h with
    sout := ⟨Memory.wf_fill h.sout.1 n f, Memory.below_fill h.sout.2 hn f⟩
    text := by
      simp only [State.putText, h.toNat_ofNat_of_le hn, Memory.read?_fill]
      exact ⟨hn, fun j hj => by simp [hj]⟩
    reset := State.reset_clause_of_released released }

/-- A new slot that is in order leaves every slot in order. -/
theorem State.Inv.putSlot {d : SlotNo} {x : Slot} (hd : (s.putSlot d x).SlotOk d) : (s.putSlot d x).Inv :=
  { h with
    slots := fun a => by
      by_cases had : a = d
      · exact had ▸ hd
      · simpa [State.SlotOk, had] using h.slots a
    reset := State.reset_clause_of_released released }

/-- An array of a legal capacity, in a slot of the block, all of its words written. -/
theorem State.Inv.putArray {d : SlotNo} {len : Nat} (hd : d.toNat < s.params.nslot) (hmod : len % 32 = 0)
    (hle : len ≤ 32 * s.params.maxw) (f : Nat → Word) : (s.putArray d len f).Inv := by
  obtain ⟨hwf, hbelow, -⟩ := h.slots d
  have hwords : len / 32 ≤ s.params.maxw := by omega
  refine h.putSlot released ?_
  simp only [State.SlotOk, State.slot_putSlot, State.putSlot_params, if_true]
  exact ⟨Memory.wf_fill hwf _ f, Memory.below_fill hbelow hwords f, fun _ =>
    ⟨hd, hmod, hle, fun k hk => by simp [hk]⟩⟩

/-- Writing every word of a valid slot is writing it whole with the capacity it has. -/
theorem State.Inv.putWords {d : SlotNo} (hv : (s.slot d).valid = true) (f : Nat → Word) : (s.putWords d f).Inv := by
  obtain ⟨hmod, hle⟩ := h.capacity hv
  have whole : s.putWords d f = s.putArray d (s.slot d).len f := by simp [State.putWords, State.putArray, hv]
  exact whole ▸ h.putArray released (h.validSlot_lt hv) hmod hle f

/-- One word of the array of a valid slot: what was written stays written. -/
theorem State.Inv.putWord {d : SlotNo} {k : Nat} (hv : (s.slot d).valid = true) (hk : k < (s.slot d).len / 32)
    (w : Word) : (s.putWord d k w).Inv := by
  obtain ⟨hwf, hbelow, hok⟩ := h.slots d
  obtain ⟨hd, hmod, hle, hwritten⟩ := hok hv
  refine h.putSlot released ?_
  simp only [State.SlotOk, State.slot_putSlot, State.putSlot_params, if_true]
  refine ⟨Memory.wf_write hwf k w, Memory.below_write hbelow (by omega) w, fun _ => ⟨hd, hmod, hle, fun j hj => ?_⟩⟩
  rw [Memory.read?_write]
  split
  · rfl
  · exact hwritten j hj

/-- SET and TOGGLE write a word of the array when the index is in range (R91). -/
theorem State.Inv.putMappedWord {d : SlotNo} (hv : (s.slot d).valid = true) (hi : s.arg.toNat < (s.slot d).len)
    (w : Word) : (s.putWord d (mapIndex s.arg (s.slot d).len).wordIndex w).Inv :=
  h.putWord released hv (mapIndex_wordIndex_lt (h.capacity hv).1 hi) w

/-- CREATE and CREATEH give a rounded capacity of at most MAXBITS (R80, R81). -/
theorem State.Inv.putRounded {d : SlotNo} {r : Nat} (hd : d.toNat < s.params.nslot)
    (hle : roundcap r ≤ s.params.maxBits) (f : Nat → Word) : (s.putArray d (roundcap r) f).Inv :=
  h.putArray released hd (Nat.mul_mod_right ..) hle f

/-- COPY, AND, OR and XOR give slot D the capacity of a valid slot (R103, R111). -/
theorem State.Inv.putArrayLike {d a : SlotNo} (hd : d.toNat < s.params.nslot) (hv : (s.slot a).valid = true)
    (f : Nat → Word) : (s.putArray d (s.slot a).len f).Inv :=
  let ⟨hmod, hle⟩ := h.capacity hv
  h.putArray released hd hmod hle f

/-! ### Commands and host accesses -/

/-- The writes every command commits keep the invariant. -/
theorem State.Inv.commits {u : State} {i : Instr} (hwf : i.wf s.params = true) (hc : Commits s u i) : u.Inv := by
  have target {d : SlotNo} (hd : d ∈ i.slots) : d.toNat < s.params.nslot :=
    of_decide_eq_true (List.all_eq_true.mp hwf d hd)
  cases i with
  | create d =>
    obtain ⟨hle, rfl⟩ := hc
    exact h.putRounded released (target (by simp [Instr.slots])) hle _
  | createh d =>
    obtain ⟨hle, -, -, -, rfl⟩ := hc
    exact h.putRounded released (target (by simp [Instr.slots])) hle _
  | get a =>
    obtain ⟨-, -, rfl⟩ := hc
    exact h.setResult released (h.flag_le _)
  | set d _ | toggle d =>
    obtain ⟨hv, hi, rfl⟩ := hc
    exact h.putMappedWord released (by simpa using hv) hi _
  | size a =>
    obtain ⟨hv, rfl⟩ := hc
    obtain ⟨-, hle⟩ := h.capacity (by simpa using hv)
    exact h.setResult released (by rwa [h.toNat_ofNat_of_le hle])
  | count a =>
    obtain ⟨hv, rfl⟩ := hc
    have hle := (s.popcount_le a).trans (h.capacity (by simpa using hv)).2
    exact h.setResult released (by rwa [h.toNat_ofNat_of_le hle])
  | equals a b =>
    obtain ⟨-, rfl⟩ := hc
    exact h.setResult released (h.flag_le _)
  | copy d a =>
    obtain ⟨hv, rfl⟩ := hc
    exact h.putArrayLike released (target (by simp [Instr.slots])) (by simpa using hv) _
  | not d =>
    obtain ⟨hv, rfl⟩ := hc
    exact h.putWords released (by simpa using hv) _
  | and d a b | or d a b | xor d a b =>
    obtain ⟨hv, -, rfl⟩ := hc
    exact h.putArrayLike released (target (by simp [Instr.slots])) (State.allValid_pair.mp hv).1 _
  | tobin a =>
    obtain ⟨hv, rfl⟩ := hc
    exact h.putText released (h.capacity (by simpa using hv)).2 _
  | tohex a =>
    obtain ⟨hv, rfl⟩ := hc
    exact h.putText released ((Nat.div_le_self ..).trans (h.capacity (by simpa using hv)).2) _

end

/-- No command's writes apply or release reset. -/
theorem Commits.inReset_eq {s u : State} {i : Instr} (hc : Commits s u i) : u.inReset = s.inReset := by
  cases i <;> simp only [Commits] at hc <;> simp [hc, State.putArray, State.putWord, State.putWords]

section
variable {s t : State} (h : s.Inv)
include h

theorem exec_keeps_inv {i : Instr} (released : s.inReset = false) (ht : exec i s = .next t) : t.Inv := by
  obtain ⟨hwf, u, hc, rfl⟩ | ⟨e, rfl⟩ := exec_next ht
  · exact (h.commits released hwf hc).succeed (hc.inReset_eq.trans released)
  · exact h.raise released e

theorem performCommand_keeps_inv {c : Word} (released : s.inReset = false) (ht : performCommand c s = .next t) :
    t.Inv := by
  have hk := h.tick released
  obtain ⟨i, -, he⟩ | ⟨e, -, he⟩ := performCommand_cases c s <;> rw [he] at ht
  · exact exec_keeps_inv hk released ht
  · cases ht; exact hk.raise released _

theorem hostRead_keeps_inv {w : Nat} {off : Offset} (released : s.inReset = false)
    (ht : hostRead w off s = .next t) : t.Inv := by
  obtain ⟨-, rfl⟩ := hostRead_next ht
  exact h.setReadData released _

theorem hostWrite_keeps_inv {w : Nat} {off : Offset} {v : Word} (released : s.inReset = false)
    (ht : hostWrite w off v s = .next t) : t.Inv := by
  obtain ⟨e, -, he⟩ | ⟨-, -, he⟩ | ⟨-, -, he | he | ⟨j, hj, he⟩⟩ := hostWrite_cases w off v s <;> rw [he] at ht
  · cases ht
  · exact performCommand_keeps_inv h released ht
  · cases ht; exact h.setArg released v
  · cases ht; exact h.setSinlen released v
  · cases ht; exact h.setSin released hj _

/-! ### Inputs and steps -/

/-- The inputs still to come are not the block's: the invariant does not speak of them. -/
theorem State.Inv.setPending (rest : List Input) : State.Inv { s with pending := rest } :=
  { h with reset := fun hr => congrArg (fun u : State => { u with pending := rest }) (h.reset hr) }

/-- The reset state is in order, for the parameters the block has (R36, R150). -/
theorem State.Inv.applyReset : s.applyReset.Inv where
  params := h.params
  slots a := by
    have empty : s.applyReset.slot a = Slot.empty := by simp [State.slot]
    simp [State.SlotOk, empty, Slot.empty, Memory.wf, Memory.below]
  code := by simp
  sticky hc := absurd rfl hc
  result := by simp
  sin := ⟨rfl, rfl⟩
  sout := ⟨rfl, rfl⟩
  text := by simp
  reset _ := rfl

/-- Releasing reset changes no field the invariant bounds, and ends the duty to hold the reset state. -/
theorem State.Inv.releaseReset : State.Inv { s with inReset := false } :=
  { h with reset := fun hr => nomatch hr }

theorem performInput_keeps_inv {x : Input} (ht : performInput x s = .next t) : t.Inv := by
  cases x with
  | read w off =>
    cases hr : s.inReset <;> simp only [performInput, hr, Bool.false_eq_true, if_true, if_false] at ht
    · exact hostRead_keeps_inv h hr ht
    · cases ht; exact h
  | write w off v =>
    cases hr : s.inReset <;> simp only [performInput, hr, Bool.false_eq_true, if_true, if_false] at ht
    · exact hostWrite_keeps_inv h hr ht
    · cases ht; exact h
  | applyReset => cases ht; exact h.applyReset
  | releaseReset => cases ht; exact h.releaseReset

end

/-- Settles O18: a step performs at most one input, and every input keeps the invariant. -/
theorem stepKeepsInv : Obligations.StepKeepsInv := by
  intro s t h ht
  cases hp : s.pending with
  | nil =>
    rw [step_of_idle hp] at ht
    cases ht; exact h
  | cons x rest =>
    rw [step_of_pending hp] at ht
    exact performInput_keeps_inv (h.setPending rest) ht

end Sys2Proof.Machine
end

section
/-! PROOFS. What every command writes and keeps (10_state.md): each commits one write, to the slot its D field names, to
RESULT, or to SOUT with SOUTLEN; the statements on single registers are read off that. -/

namespace Sys2Proof.Machine

/-- The one write a command commits, by the part of the state it goes to (R22(c), R25, R28, R29). -/
inductive SoleWrite (s : State) (i : Instr) : State → Prop
  /-- The slot of the D field; SET, TOGGLE and NOT keep its capacity and VALID. -/
  | slot {d : SlotNo} {x : Slot} (target : i.target = some d)
      (keeps : (∃ v, i = .set d v) ∨ i = .toggle d ∨ i = .not d →
        x.len = (s.slot d).len ∧ x.valid = (s.slot d).valid) :
      SoleWrite s i (s.putSlot d x)
  /-- RESULT. -/
  | result {w : Word} (writer : (∃ a, i = .get a) ∨ (∃ a, i = .size a) ∨ (∃ a, i = .count a) ∨ ∃ a b, i = .equals a b) :
      SoleWrite s i (s.setResult w)
  /-- SOUT and SOUTLEN. -/
  | text {n : Nat} {f : Nat → Byte} (writer : (∃ a, i = .tobin a) ∨ ∃ a, i = .tohex a) :
      SoleWrite s i (s.putText n f)

/-- Every command commits one write. -/
theorem Commits.soleWrite {s u : State} {i : Instr} (hc : Commits s u i) : SoleWrite s i u := by
  cases i with
  | create d =>
    obtain ⟨-, rfl⟩ := hc
    exact .slot rfl (by simp)
  | createh d =>
    obtain ⟨-, -, -, -, rfl⟩ := hc
    exact .slot rfl (by simp)
  | copy d a =>
    obtain ⟨-, rfl⟩ := hc
    exact .slot rfl (by simp)
  | and d a b | or d a b | xor d a b =>
    obtain ⟨-, -, rfl⟩ := hc
    exact .slot rfl (by simp)
  | set d v | toggle d =>
    obtain ⟨-, -, rfl⟩ := hc
    exact .slot rfl fun _ => ⟨rfl, rfl⟩
  | not d =>
    obtain ⟨-, rfl⟩ := hc
    exact .slot rfl fun _ => ⟨rfl, rfl⟩
  | get a =>
    obtain ⟨-, -, rfl⟩ := hc
    exact .result (.inl ⟨a, rfl⟩)
  | size a =>
    obtain ⟨-, rfl⟩ := hc
    exact .result (.inr (.inl ⟨a, rfl⟩))
  | count a =>
    obtain ⟨-, rfl⟩ := hc
    exact .result (.inr (.inr (.inl ⟨a, rfl⟩)))
  | equals a b =>
    obtain ⟨-, rfl⟩ := hc
    exact .result (.inr (.inr (.inr ⟨a, b, rfl⟩)))
  | tobin a =>
    obtain ⟨-, rfl⟩ := hc
    exact .text (.inl ⟨a, rfl⟩)
  | tohex a =>
    obtain ⟨-, rfl⟩ := hc
    exact .text (.inr ⟨a, rfl⟩)

/-- A command that takes a next state has made its one write and reported success, or has reported an error. -/
theorem exec_next_soleWrite {i : Instr} {s t : State} (h : exec i s = .next t) :
    (∃ u, SoleWrite s i u ∧ t = u.succeed) ∨ ∃ e, t = s.raise e := by
  obtain ⟨-, u, hc, rfl⟩ | herr := exec_next h
  · exact .inl ⟨u, hc.soleWrite, rfl⟩
  · exact .inr herr

/-- Settles O20: none of the three writes, nor STATUS, is one of the fields kept. -/
theorem commandsKeepOperands : Obligations.CommandsKeepOperands := by
  intro i s t h
  obtain ⟨u, hw, rfl⟩ | ⟨e, rfl⟩ := exec_next_soleWrite h
  · cases hw <;> rfl
  · rfl

/-- Settles O24: the write to RESULT is made by the four commands excluded. -/
theorem resultWriters : Obligations.ResultWriters := by
  intro i s t h hget hsize hcount hequals
  obtain ⟨u, hw, rfl⟩ | ⟨e, rfl⟩ := exec_next_soleWrite h
  · cases hw with
    | slot | text => rfl
    | result writer => simp [hget, hsize, hcount, hequals] at writer
  · rfl

/-- Settles O25: the write to SOUT and SOUTLEN is made by the two commands excluded. -/
theorem textWriters : Obligations.TextWriters := by
  intro i s t h htobin htohex
  obtain ⟨u, hw, rfl⟩ | ⟨e, rfl⟩ := exec_next_soleWrite h
  · cases hw with
    | slot | result => exact ⟨rfl, rfl⟩
    | text writer => simp [htobin, htohex] at writer
  · exact ⟨rfl, rfl⟩

/-- SET, TOGGLE and NOT write the slot they name. -/
theorem target_of_inPlace {i : Instr} {d : SlotNo} (h : (∃ v, i = .set d v) ∨ i = .toggle d ∨ i = .not d) :
    i.target = some d := by
  obtain ⟨v, rfl⟩ | rfl | rfl := h <;> rfl

/-- Settles O26: the write to a slot goes to the one of the D field, and the other writes go to no slot. -/
theorem slotWriters : Obligations.SlotWriters := by
  intro i s t h
  obtain ⟨u, hw, rfl⟩ | ⟨e, rfl⟩ := exec_next_soleWrite h
  · cases hw with
    | @slot d x target keeps =>
      refine ⟨fun a ha => ?_, fun d' hi => ?_⟩
      · have had : a ≠ d := fun hd => ha (hd ▸ target)
        simp [had]
      · obtain rfl : d = d' := Option.some.inj (target.symm.trans (target_of_inPlace hi))
        simpa using keeps hi
    | result | text => exact ⟨fun _ _ => rfl, fun _ _ => ⟨rfl, rfl⟩⟩
  · exact ⟨fun _ _ => rfl, fun _ _ => ⟨rfl, rfl⟩⟩

/-! ### STATUS and CC -/

/-- How a command leaves STATUS (R26, R64): success leaves STICKY, an error sets it. -/
structure StatusReported (s t : State) : Prop where
  code : t.code.toNat ≤ 7
  success : t.code = 0 → t.sticky = s.sticky
  error : t.code ≠ 0 → t.sticky = true

theorem statusReported_raise (s : State) (e : ErrorCode) : StatusReported s (s.raise e) where
  code := e.code_range.2
  success h := absurd h e.code_range.1
  error _ := rfl

theorem exec_statusReported {i : Instr} {s t : State} (h : exec i s = .next t) : StatusReported s t := by
  obtain ⟨u, hw, rfl⟩ | ⟨e, rfl⟩ := exec_next_soleWrite h
  · exact { code := by simp, success := fun _ => by cases hw <;> rfl, error := fun hc => absurd rfl hc }
  · exact statusReported_raise s e

/-- No command writes CC: the CMD write advances it. -/
theorem exec_cc {i : Instr} {s t : State} (h : exec i s = .next t) : t.cc = s.cc :=
  (congrArg State.cc (commandsKeepOperands i s t h) :)

theorem performCommand_statusReported {c : Word} {s t : State} (h : performCommand c s = .next t) :
    StatusReported s.tick t := by
  obtain ⟨i, -, he⟩ | ⟨e, -, he⟩ := performCommand_cases c s <;> rw [he] at h
  · exact exec_statusReported h
  · cases h; exact statusReported_raise s.tick _

theorem performCommand_cc {c : Word} {s t : State} (h : performCommand c s = .next t) : t.cc = s.cc + 1 := by
  obtain ⟨i, -, he⟩ | ⟨e, -, he⟩ := performCommand_cases c s <;> rw [he] at h
  · exact exec_cc h
  · cases h; rfl

/-- Settles O22: the CMD write counts the command, which reports its outcome in STATUS. -/
theorem statusAndCounter : Obligations.StatusAndCounter := by
  intro c s t h
  obtain ⟨hcode, hsuccess, herror⟩ := performCommand_statusReported h
  exact ⟨performCommand_cc h, hcode, hsuccess, herror⟩

/-! ### CREATEH of a seed with an unwritten cell -/

/-- Settles O31: the cell is the first unwritten one, and every check made before the seed is read has passed. -/
theorem createhUnwrittenCell : Obligations.CreatehUnwrittenCell := by
  intro s d j hd hcap hseed hj hnone hbefore
  have hfirst : s.firstUnwritten s.sinlen.toNat = some j := State.firstUnwritten_eq_some.mpr ⟨hj, hnone, hbefore⟩
  have hslot : [d].all s.params.hasSlot = true := by simpa [Params.hasSlot] using hd
  have hmax : roundcap s.arg.toNat ≤ s.params.maxBits := hcap
  simp [exec, execCreateh, runCommand_of_slots hslot, hmax, hseed, hfirst]

end Sys2Proof.Machine
end

section
/-! PROOFS. What a host access and a step keep, and what stops them (20_memory.md R42 to R50, R53). -/

namespace Sys2Proof.Machine

/-! ### The step, by the input it takes -/

theorem hostWrite_cmd (c : Word) (s : State) : hostWrite 32 0 c s = performCommand c s := by
  simp [hostWrite, writeError, placeAt, Place.writable]

theorem performCommand_of_decode {c : Word} {i : Instr} (h : decode c = .ok i) (s : State) :
    performCommand c s = exec i s.tick := by
  simp [performCommand, h]

/-- Everything an input can be: reset applied or released; an access that finds reset applied and has no effect (R150); or
one that is performed. -/
theorem performInput_cases (x : Input) (s : State) :
    (x = .applyReset ∧ performInput x s = .next s.applyReset) ∨
    (x = .releaseReset ∧ performInput x s = .next { s with inReset := false }) ∨
    (s.inReset = true ∧ performInput x s = .next s) ∨
    (s.inReset = false ∧
      ((∃ w off, x = .read w off ∧ performInput x s = hostRead w off s) ∨
        ∃ w off v, x = .write w off v ∧ performInput x s = hostWrite w off v s)) := by
  cases x with
  | read w off =>
    cases hr : s.inReset with
    | true => exact .inr (.inr (.inl ⟨rfl, by simp [performInput, hr]⟩))
    | false => exact .inr (.inr (.inr ⟨rfl, .inl ⟨w, off, rfl, by simp [performInput, hr]⟩⟩))
  | write w off v =>
    cases hr : s.inReset with
    | true => exact .inr (.inr (.inl ⟨rfl, by simp [performInput, hr]⟩))
    | false => exact .inr (.inr (.inr ⟨rfl, .inr ⟨w, off, v, rfl, by simp [performInput, hr]⟩⟩))
  | applyReset => exact .inl ⟨rfl, rfl⟩
  | releaseReset => exact .inr (.inl ⟨rfl, rfl⟩)

section
variable {s : State} {rest : List Input} {w : Nat} {off : Offset} (released : s.inReset = false)
include released

theorem step_of_read (hp : s.pending = .read w off :: rest) :
    step s = hostRead w off { s with pending := rest } := by
  simp [step_of_pending hp, performInput, released]

theorem step_of_write {v : Word} (hp : s.pending = .write w off v :: rest) :
    step s = hostWrite w off v { s with pending := rest } := by
  simp [step_of_pending hp, performInput, released]

end

/-- Settles O6: a write to CMD is performed as the command it spells. -/
theorem stepRunsCommand : Obligations.StepRunsCommand := by
  intro s c rest i released hp hdecode
  rw [step_of_write released hp, hostWrite_cmd, performCommand_of_decode hdecode]
  rfl

/-! ### What an access keeps -/

/-- What no host access changes, commands included: CONFIG (R31), the reset line and its count, the inputs still to come,
and a STICKY that is set (R26). -/
structure AccessKeeps (s t : State) : Prop where
  params : t.params = s.params
  inReset : t.inReset = s.inReset
  resets : t.resets = s.resets
  pending : t.pending = s.pending
  sticky : s.sticky = true → t.sticky = true

theorem AccessKeeps.refl (s : State) : AccessKeeps s s := ⟨rfl, rfl, rfl, rfl, id⟩

/-- CC is not among the fields accesses keep, so counting the command is no matter. -/
theorem AccessKeeps.of_tick {s t : State} (h : AccessKeeps s.tick t) : AccessKeeps s t :=
  ⟨h.params, h.inReset, h.resets, h.pending, h.sticky⟩

theorem raise_keeps (s : State) (e : ErrorCode) : AccessKeeps s (s.raise e) := ⟨rfl, rfl, rfl, rfl, fun _ => rfl⟩

theorem exec_keeps {i : Instr} {s t : State} (h : exec i s = .next t) : AccessKeeps s t := by
  obtain ⟨u, hw, rfl⟩ | ⟨e, rfl⟩ := exec_next_soleWrite h
  · cases hw <;> exact ⟨rfl, rfl, rfl, rfl, id⟩
  · exact raise_keeps s e

theorem performCommand_keeps {c : Word} {s t : State} (h : performCommand c s = .next t) : AccessKeeps s t := by
  obtain ⟨i, -, he⟩ | ⟨e, -, he⟩ := performCommand_cases c s <;> rw [he] at h
  · exact (exec_keeps h).of_tick
  · cases h; exact (raise_keeps s.tick _).of_tick

theorem hostRead_keeps {w : Nat} {off : Offset} {s t : State} (h : hostRead w off s = .next t) : AccessKeeps s t := by
  obtain ⟨-, rfl⟩ := hostRead_next h
  exact ⟨rfl, rfl, rfl, rfl, id⟩

theorem hostWrite_keeps {w : Nat} {off : Offset} {v : Word} {s t : State} (h : hostWrite w off v s = .next t) :
    AccessKeeps s t := by
  obtain ⟨e, -, he⟩ | ⟨-, -, he⟩ | ⟨-, -, he | he | ⟨j, -, he⟩⟩ := hostWrite_cases w off v s <;> rw [he] at h
  · cases h
  · exact performCommand_keeps h
  all_goals cases h; exact ⟨rfl, rfl, rfl, rfl, id⟩

/-- Everything an input can do: apply or release reset, or be an access, which keeps what accesses keep. -/
theorem performInput_next {x : Input} {s t : State} (h : performInput x s = .next t) :
    (x = .applyReset ∧ t = s.applyReset) ∨ (x = .releaseReset ∧ t = { s with inReset := false }) ∨ AccessKeeps s t := by
  obtain ⟨rfl, he⟩ | ⟨rfl, he⟩ | ⟨-, he⟩ | ⟨-, ⟨w, off, -, he⟩ | ⟨w, off, v, -, he⟩⟩ := performInput_cases x s <;>
    rw [he] at h
  · cases h; exact .inl ⟨rfl, rfl⟩
  · cases h; exact .inr (.inl ⟨rfl, rfl⟩)
  · cases h; exact .inr (.inr (.refl s))
  · exact .inr (.inr (hostRead_keeps h))
  · exact .inr (.inr (hostWrite_keeps h))

/-- Everything a step can do: find no input, or perform the first. -/
theorem step_next {s t : State} (h : step s = .next t) :
    (s.pending = [] ∧ t = s) ∨
    ∃ x rest, s.pending = x :: rest ∧ performInput x { s with pending := rest } = .next t := by
  cases hp : s.pending with
  | nil =>
    rw [step_of_idle hp] at h
    cases h; exact .inl ⟨rfl, rfl⟩
  | cons x rest => exact .inr ⟨x, rest, rfl, step_of_pending hp ▸ h⟩

theorem performInput_pending {x : Input} {s t : State} (h : performInput x s = .next t) : t.pending = s.pending := by
  obtain ⟨-, rfl⟩ | ⟨-, rfl⟩ | hk := performInput_next h
  · rfl
  · rfl
  · exact hk.pending

theorem performInput_params {x : Input} {s t : State} (h : performInput x s = .next t) : t.params = s.params := by
  obtain ⟨-, rfl⟩ | ⟨-, rfl⟩ | hk := performInput_next h
  · rfl
  · rfl
  · exact hk.params

/-- Settles O7: the step is the performance of the first input. -/
theorem stepTakesOneInput : Obligations.StepTakesOneInput := by
  refine ⟨fun s => step_of_idle, fun s t h => ?_, fun s rest w off hr hp => step_of_read hr hp,
    fun s rest w off v hr hp => step_of_write hr hp⟩
  obtain ⟨hp, rfl⟩ | ⟨x, rest, hp, hx⟩ := step_next h
  · simp [hp]
  · rw [performInput_pending hx, hp, List.tail_cons]

/-- Settles O16: no access clears STICKY, and neither does releasing reset. -/
theorem stickyUntilReset : Obligations.StickyUntilReset := by
  intro s t h hsticky hreset
  obtain ⟨-, rfl⟩ | ⟨x, rest, hp, hx⟩ := step_next h
  · exact hsticky
  · obtain ⟨rfl, -⟩ | ⟨-, rfl⟩ | hk := performInput_next hx
    · simp [hp] at hreset
    · exact hsticky
    · exact hk.sticky hsticky

/-! ### CONFIG -/

/-- The fields of CONFIG do not overlap: its value is the sum of their contributions (R31). -/
theorem State.configWord_eq {s : State} (h : s.params.wf = true) :
    s.configWord = BitVec.ofNat 32 (65536 * s.params.maxw + s.params.nslot) := by
  simp only [Params.wf, Bool.and_eq_true, decide_eq_true_eq] at h
  have hor := Nat.two_pow_add_eq_or_of_lt (i := 16) (b := s.params.nslot) (by omega) s.params.maxw
  apply BitVec.eq_of_toNat_eq
  simp only [State.configWord, BitVec.toNat_or, BitVec.toNat_shiftLeft, BitVec.toNat_ofNat, Nat.shiftLeft_eq]
  rw [Nat.mod_eq_of_lt (a := s.params.nslot) (by omega), Nat.mod_eq_of_lt (a := s.params.maxw) (by omega),
    Nat.mod_eq_of_lt (by omega), Nat.mod_eq_of_lt (by omega), Nat.mul_comm s.params.maxw, ← hor]

/-- A write the map does not allow is a bus error (R44). -/
theorem hostWrite_of_not_allowed {w : Nat} {off : Offset} {s : State} (h : ¬ WriteAllowed s.params w off) (v : Word) :
    ∃ e, hostWrite w off v s = .fault (.busError e off) := by
  rw [← writeError_eq_none_iff] at h
  obtain ⟨e, he⟩ := Option.ne_none_iff_exists'.mp h
  exact ⟨e, by simp [hostWrite, he]⟩

theorem hostRead_config (s : State) : hostRead 32 0x000018 s = .next (s.setReadData s.configWord) := by
  simp [hostRead, readError, placeAt, Place.readable, State.readPlace]

/-- CONFIG has no W in its access column (R43). -/
theorem not_writeAllowed_config (p : Params) (w : Nat) : ¬ WriteAllowed p w 0x000018 := by
  simp [WriteAllowed]

/-- Settles O15: reset included, no input changes the parameters; the fields are read off the value. -/
theorem configConstant : Obligations.ConfigConstant := by
  refine ⟨fun s t h => ?_, fun s w v => hostWrite_of_not_allowed (not_writeAllowed_config s.params w) v, fun s hwf =>
    ⟨s.configWord, hostRead_config s, ?_⟩⟩
  · obtain ⟨-, rfl⟩ | ⟨x, rest, -, hx⟩ := step_next h
    · rfl
    · simpa using performInput_params hx
  · rw [State.configWord_eq hwf]
    simp only [Params.wf, Bool.and_eq_true, decide_eq_true_eq] at hwf
    simp only [BitVec.toNat_eq, BitVec.extractLsb'_toNat, BitVec.toNat_ofNat, BitVec.reduceToNat,
      Nat.shiftRight_eq_div_pow]
    omega

/-! ### What stops a step -/

theorem performCommand_not_refused (c : Word) (s : State) (r : Refusal) : performCommand c s ≠ .refused r := by
  obtain ⟨i, -, he⟩ | ⟨e, -, he⟩ := performCommand_cases c s <;> rw [he]
  · exact exec_not_refused i s.tick r
  · simp

theorem hostWrite_not_refused (w : Nat) (off : Offset) (v : Word) (s : State) (r : Refusal) :
    hostWrite w off v s ≠ .refused r := by
  obtain ⟨e, -, he⟩ | ⟨-, -, he⟩ | ⟨-, -, he | he | ⟨j, -, he⟩⟩ := hostWrite_cases w off v s <;> rw [he]
  case inr.inl => exact performCommand_not_refused v s r
  all_goals simp

theorem performInput_not_refused (x : Input) (s : State) (r : Refusal) : performInput x s ≠ .refused r := by
  obtain ⟨rfl, he⟩ | ⟨rfl, he⟩ | ⟨-, he⟩ | ⟨-, ⟨w, off, -, he⟩ | ⟨w, off, v, -, he⟩⟩ := performInput_cases x s <;>
    rw [he]
  case inr.inr.inr.inl => exact hostRead_not_refused w off s r
  case inr.inr.inr.inr => exact hostWrite_not_refused w off v s r
  all_goals simp

theorem step_not_refused (s : State) (r : Refusal) : step s ≠ .refused r := by
  cases hp : s.pending with
  | nil => simp [step_of_idle hp]
  | cons x rest => rw [step_of_pending hp]; exact performInput_not_refused x _ r

/-- A command write stops only at the first unwritten seed cell of a CREATEH (R36). -/
theorem performCommand_fault {c : Word} {s : State} {f : Fault} (h : performCommand c s = .fault f) :
    ∃ d j, decode c = .ok (.createh d) ∧ f = .sinUnwritten j ∧ s.firstUnwritten s.sinlen.toNat = some j := by
  obtain ⟨i, hdecode, he⟩ | ⟨e, -, he⟩ := performCommand_cases c s <;> rw [he] at h
  · obtain ⟨d, j, rfl, hf, hfirst⟩ := exec_fault h
    exact ⟨d, j, hdecode, hf, hfirst⟩
  · cases h

/-- A read stops only with a bus error, where the map does not allow it (R44). -/
theorem hostRead_fault_not_allowed {w : Nat} {off : Offset} {s : State} {f : Fault} (h : hostRead w off s = .fault f) :
    ∃ e, f = .busError e off ∧ ¬ ReadAllowed s.params w off := by
  obtain ⟨e, he, rfl⟩ := hostRead_fault h
  exact ⟨e, rfl, fun ha => by simp [(readError_eq_none_iff ..).mpr ha] at he⟩

/-- A write stops with a bus error, where the map does not allow it (R44), or as the command written to CMD. -/
theorem hostWrite_fault {w : Nat} {off : Offset} {v : Word} {s : State} {f : Fault}
    (h : hostWrite w off v s = .fault f) :
    (∃ e, f = .busError e off ∧ ¬ WriteAllowed s.params w off) ∨
    (w = 32 ∧ off = 0 ∧ performCommand v s = .fault f) := by
  obtain ⟨e, hw, he⟩ | ⟨rfl, rfl, he⟩ | ⟨-, -, he | he | ⟨j, -, he⟩⟩ := hostWrite_cases w off v s <;> rw [he] at h
  · cases h
    exact .inl ⟨e, rfl, fun ha => by simp [(writeError_eq_none_iff ..).mpr ha] at hw⟩
  · exact .inr ⟨rfl, rfl, h⟩
  all_goals cases h

/-- Only an access outside reset stops an input. -/
theorem performInput_fault {x : Input} {s : State} {f : Fault} (h : performInput x s = .fault f) :
    s.inReset = false ∧
    ((∃ w off, x = .read w off ∧ hostRead w off s = .fault f) ∨
      ∃ w off v, x = .write w off v ∧ hostWrite w off v s = .fault f) := by
  obtain ⟨rfl, he⟩ | ⟨rfl, he⟩ | ⟨-, he⟩ | ⟨released, ⟨w, off, rfl, he⟩ | ⟨w, off, v, rfl, he⟩⟩ :=
    performInput_cases x s <;> rw [he] at h
  case inr.inr.inr.inl => exact ⟨released, .inl ⟨w, off, rfl, h⟩⟩
  case inr.inr.inr.inr => exact ⟨released, .inr ⟨w, off, v, rfl, h⟩⟩
  all_goals cases h

/-- A step stops only in performing an input. -/
theorem step_fault {s : State} {f : Fault} (h : step s = .fault f) :
    ∃ x rest, s.pending = x :: rest ∧ performInput x { s with pending := rest } = .fault f := by
  cases hp : s.pending with
  | nil => rw [step_of_idle hp] at h; cases h
  | cons x rest => exact ⟨x, rest, rfl, step_of_pending hp ▸ h⟩

/-- Settles O17: a fault is traced from the step through its input to the access and the command. -/
theorem whatStopsAStep : Obligations.WhatStopsAStep := by
  refine ⟨step_not_refused, fun s f h => ?_⟩
  obtain ⟨x, rest, hp, hx⟩ := step_fault h
  obtain ⟨released, ⟨w, off, rfl, hr⟩ | ⟨w, off, v, rfl, hw⟩⟩ := performInput_fault hx
  · obtain ⟨e, hf, hallowed⟩ := hostRead_fault_not_allowed hr
    exact ⟨released, rest, .inl ⟨w, off, e, hp, hf, hallowed⟩⟩
  · obtain ⟨e, hf, hallowed⟩ | ⟨rfl, rfl, hcmd⟩ := hostWrite_fault hw
    · exact ⟨released, rest, .inr (.inl ⟨w, off, v, e, hp, hf, hallowed⟩)⟩
    · obtain ⟨d, j, hdecode, hf, hfirst⟩ := performCommand_fault hcmd
      obtain ⟨hj, hnone, -⟩ := State.firstUnwritten_eq_some.mp hfirst
      exact ⟨released, rest, .inr (.inr ⟨v, d, j, hp, hdecode, hf, hj, hnone⟩)⟩

end Sys2Proof.Machine
end

section
/-! PROOFS. The state right after reset (10_state.md R36). -/

namespace Sys2Proof.Machine

@[simp] theorem State.slot_resetWith (p : Params) (a : SlotNo) : (State.resetWith p).slot a = Slot.empty := by
  simp [State.slot, State.resetWith]

theorem chosenParams_wf : chosenParams.wf = true := by decide

/-- Settles O12: each value is the one State.resetWith gives. -/
theorem resetValues : Obligations.ResetValues := by
  refine ⟨fun p a => ?_, chosenParams, chosenParams_wf, rfl⟩
  simp only [State.slot_resetWith]
  exact ⟨rfl, rfl, rfl, rfl, rfl, rfl, rfl, rfl, rfl, rfl, fun j => ⟨rfl, rfl, rfl⟩⟩

/-- Right after reset every memory is empty, no slot is valid and every register is 0, so the bounds hold. -/
theorem State.resetWith_inv {p : Params} (h : p.wf = true) : (State.resetWith p).Inv where
  params := h
  slots a := by simp [State.SlotOk, Slot.empty, Memory.wf, Memory.below]
  code := Nat.zero_le _
  sticky hc := absurd rfl hc
  result := Nat.zero_le _
  sin := ⟨rfl, rfl⟩
  sout := ⟨rfl, rfl⟩
  text := ⟨Nat.zero_le _, fun _ hj => absurd hj (Nat.not_lt_zero _)⟩
  reset := State.reset_clause_of_released rfl

/-- Settles O19: the parameters chosen for State.reset are legal ones. -/
theorem resetInv : Obligations.ResetInv :=
  ⟨fun _ => State.resetWith_inv, State.resetWith_inv chosenParams_wf⟩

end Sys2Proof.Machine
end

section
/-! PROOFS. Host accesses place by place (20_memory.md R42 to R50): where a cell of a character window stands, what a
read and a write do at each place, and which of them complete. -/

namespace Sys2Proof.Machine

/-! ### The cells of the character windows -/

theorem Params.maxw_le_of_wf {p : Params} (h : p.wf = true) : p.maxw ≤ 65535 := by
  simp only [Params.wf, Bool.and_eq_true, decide_eq_true_eq] at h
  exact h.2

/-- SIN ends inside the 24-bit register space. -/
theorem sinOffset_toNat {p : Params} (h : p.wf = true) {j : Nat} (hj : j < p.sinCap) :
    (BitVec.ofNat 24 (0x400000 + 4 * j)).toNat = 0x400000 + 4 * j := by
  have hmax := Params.maxw_le_of_wf h
  unfold Params.sinCap at hj
  rw [BitVec.toNat_ofNat, Nat.mod_eq_of_lt (by omega)]

/-- SOUT ends inside the 24-bit register space. -/
theorem soutOffset_toNat {p : Params} (h : p.wf = true) {j : Nat} (hj : j < p.soutCap) :
    (BitVec.ofNat 24 (0x800000 + 4 * j)).toNat = 0x800000 + 4 * j := by
  have hmax := Params.maxw_le_of_wf h
  unfold Params.soutCap at hj
  rw [BitVec.toNat_ofNat, Nat.mod_eq_of_lt (by omega)]

theorem placeAt_sin {p : Params} {j : Nat} (hj : j < p.sinCap) : placeAt p (0x400000 + 4 * j) = .sin j := by
  have hdiv : (0x400000 + 4 * j - 0x400000) / 4 = j := by omega
  rw [placeAt, if_neg (by omega), if_neg (by omega), if_neg (by omega), if_neg (by omega), if_neg (by omega),
    if_neg (by omega), if_neg (by omega), if_pos (by omega), hdiv]

/-- With legal parameters SIN ends below SOUT, so the windows do not overlap. -/
theorem placeAt_sout {p : Params} (h : p.wf = true) {j : Nat} (hj : j < p.soutCap) :
    placeAt p (0x800000 + 4 * j) = .sout j := by
  have hmax := Params.maxw_le_of_wf h
  have hsin : p.sinCap = 8 * p.maxw := rfl
  have hdiv : (0x800000 + 4 * j - 0x800000) / 4 = j := by omega
  rw [placeAt, if_neg (by omega), if_neg (by omega), if_neg (by omega), if_neg (by omega), if_neg (by omega),
    if_neg (by omega), if_neg (by omega), if_neg (by omega), if_pos (by omega), hdiv]

/-! ### Reads -/

theorem hostRead_of_not_allowed {w : Nat} {off : Offset} {s : State} (h : ¬ ReadAllowed s.params w off) :
    ∃ e, hostRead w off s = .fault (.busError e off) := by
  rw [← readError_eq_none_iff] at h
  obtain ⟨e, he⟩ := Option.ne_none_iff_exists'.mp h
  exact ⟨e, by simp [hostRead, he]⟩

theorem hostRead_of_readError_eq_none {w : Nat} {off : Offset} {s : State} (h : readError s.params w off = none) :
    hostRead w off s = .next (s.setReadData (s.readPlace (placeAt s.params off.toNat))) := by
  simp [hostRead, h]

/-- An aligned 32-bit read of a readable place gives the value at that place. -/
theorem hostRead_of_place {off : Offset} {s : State} {pl : Place} (haligned : off.toNat % 4 = 0)
    (hplace : placeAt s.params off.toNat = pl) (hreadable : pl.readable = true) :
    hostRead 32 off s = .next (s.setReadData (s.readPlace pl)) := by
  have hres : pl ≠ .reserved := fun h => by simp [h, Place.readable] at hreadable
  rw [hostRead_of_readError_eq_none (by simp [readError, haligned, hplace, hres, hreadable]), hplace]

theorem hostRead_sin {s : State} (h : s.params.wf = true) {j : Nat} (hj : j < s.params.sinCap) :
    hostRead 32 (BitVec.ofNat 24 (0x400000 + 4 * j)) s = .next (s.setReadData ((s.sinChar j).setWidth 32)) := by
  have hoff := sinOffset_toNat h hj
  exact hostRead_of_place (by omega) (hoff ▸ placeAt_sin hj) rfl

theorem hostRead_sout {s : State} (h : s.params.wf = true) {j : Nat} (hj : j < s.params.soutCap) :
    hostRead 32 (BitVec.ofNat 24 (0x800000 + 4 * j)) s = .next (s.setReadData ((s.soutChar j).setWidth 32)) := by
  have hoff := soutOffset_toNat h hj
  exact hostRead_of_place (by omega) (hoff ▸ placeAt_sout h hj) rfl

/-- The fields of STATUS do not overlap: its value is the sum of their contributions (R26, R42). -/
theorem State.statusWord_eq (s : State) :
    s.statusWord = BitVec.ofNat 32 (256 * s.sticky.toNat + s.code.toNat) := by
  unfold State.statusWord
  generalize s.sticky = sticky, s.code = code
  revert sticky code
  decide

/-- No place of the map shows the host what it has read last. -/
@[simp] theorem State.readPlace_setReadData (s : State) (x : Word) (pl : Place) :
    (s.setReadData x).readPlace pl = s.readPlace pl := by
  cases pl <;> rfl

@[simp] theorem State.setReadData_setReadData (s : State) (x y : Word) :
    (s.setReadData x).setReadData y = s.setReadData y := rfl

/-! ### Writes -/

theorem hostWrite_arg (v : Word) (s : State) : hostWrite 32 0x000004 v s = .next (s.setArg v) := by
  simp [hostWrite, writeError, placeAt, Place.writable]

theorem hostWrite_sinlen (v : Word) (s : State) : hostWrite 32 0x000010 v s = .next (s.setSinlen v) := by
  simp [hostWrite, writeError, placeAt, Place.writable]

theorem hostWrite_sin {off : Offset} {s : State} {j : Nat} (hj : j < s.params.sinCap)
    (hoff : off.toNat = 0x400000 + 4 * j) (v : Word) : hostWrite 32 off v s = .next (s.setSin j (v.setWidth 8)) := by
  have haligned : (0x400000 + 4 * j) % 4 = 0 := by omega
  simp [hostWrite, writeError, hoff, haligned, placeAt_sin hj, Place.writable]

/-- Everything an allowed write that is not to CMD does: put its value into ARG, SINLEN or one cell of SIN, whichever
stands at the offset. -/
theorem hostWrite_allowed_cases {w : Nat} {off : Offset} {s : State} (h : WriteAllowed s.params w off) (h0 : off ≠ 0)
    (v : Word) :
    w = 32 ∧
    ((off = 0x000004 ∧ hostWrite w off v s = .next (s.setArg v)) ∨
    (off = 0x000010 ∧ hostWrite w off v s = .next (s.setSinlen v)) ∨
    ∃ j < s.params.sinCap, off.toNat = 0x400000 + 4 * j ∧
      hostWrite w off v s = .next (s.setSin j (v.setWidth 8))) := by
  obtain ⟨rfl, haligned, rfl | rfl | rfl | ⟨hlow, hhigh⟩⟩ := h
  · exact absurd rfl h0
  · exact ⟨rfl, .inl ⟨rfl, hostWrite_arg v s⟩⟩
  · exact ⟨rfl, .inr (.inl ⟨rfl, hostWrite_sinlen v s⟩)⟩
  · have hcap : s.params.sinCap = 8 * s.params.maxw := rfl
    have hj : (off.toNat - 0x400000) / 4 < s.params.sinCap := by omega
    have hoff : off.toNat = 0x400000 + 4 * ((off.toNat - 0x400000) / 4) := by omega
    exact ⟨rfl, .inr (.inr ⟨_, hj, hoff, hostWrite_sin hj hoff v⟩)⟩

theorem writeAllowed_of_hostWrite_next {w : Nat} {off : Offset} {v : Word} {s t : State}
    (h : hostWrite w off v s = .next t) : WriteAllowed s.params w off := by
  by_contra hn
  obtain ⟨e, he⟩ := hostWrite_of_not_allowed hn v
  cases he.symm.trans h

theorem State.setSin_setSin (s : State) (j : Nat) (c : Byte) : (s.setSin j c).setSin j c = s.setSin j c := by
  simp [State.setSin, Memory.write_write]

/-! ### The statements -/

/-- Settles O8: the registers stand at fixed offsets; a cell of a window is found from its number; what the map does not
allow is refused before any place is looked at. -/
theorem hostPrimitives : Obligations.HostPrimitives := by
  intro s v hwf
  refine ⟨hostWrite_cmd v s, hostWrite_arg v s, hostWrite_sinlen v s, hostRead_of_place rfl rfl rfl,
    hostRead_of_place rfl rfl rfl, s.statusWord_eq ▸ hostRead_of_place rfl rfl rfl, hostRead_of_place rfl rfl rfl,
    hostRead_of_place rfl rfl rfl, State.configWord_eq hwf ▸ hostRead_config s, fun j hj => ?sin, fun j hj => ?sout,
    fun w off => ⟨fun h => hostWrite_of_not_allowed h v, hostRead_of_not_allowed⟩⟩
  case sin =>
    have hread := hostRead_sin hwf hj
    have hwrite := hostWrite_sin hj (sinOffset_toNat hwf hj) v
    exact ⟨hread, fun c hc => State.sinChar_of_written hc ▸ hread, _, hwrite, rfl,
      fun k => by simp [BitVec.setWidth_eq_extractLsb']⟩
  case sout =>
    have hread := hostRead_sout hwf hj
    exact ⟨hread, fun c hc => State.soutChar_of_written hc ▸ hread⟩

/-- Settles O9: the map's own checks are the allowed accesses, and each place an allowed access reaches completes it. -/
theorem busErrors : Obligations.BusErrors := by
  intro s w off v
  refine ⟨hostRead_of_not_allowed, fun h => ⟨_, hostRead_of_readError_eq_none ((readError_eq_none_iff ..).mpr h)⟩,
    fun h => hostWrite_of_not_allowed h v, fun h h0 => ?_⟩
  obtain ⟨-, ⟨-, he⟩ | ⟨-, he⟩ | ⟨j, -, -, he⟩⟩ := hostWrite_allowed_cases h h0 v <;> exact ⟨_, he⟩

/-- Settles O10: a read writes only the value read, which no place of the map shows. -/
theorem readsHaveNoSideEffect : Obligations.ReadsHaveNoSideEffect := by
  intro s t w off h
  obtain ⟨hnone, rfl⟩ := hostRead_next h
  refine ⟨rfl, ?_⟩
  simp [hostRead_of_readError_eq_none, hnone]

/-- Settles O11: the second write goes to the place of the first, which holds the value already. -/
theorem writesAreIdempotent : Obligations.WritesAreIdempotent := by
  intro s t w off v h0 h
  obtain ⟨rfl, ⟨rfl, he⟩ | ⟨rfl, he⟩ | ⟨j, hj, hoff, he⟩⟩ :=
    hostWrite_allowed_cases (writeAllowed_of_hostWrite_next h) h0 v <;>
    obtain rfl := Host.Outcome.next.inj (he.symm.trans h)
  · exact hostWrite_arg v _
  · exact hostWrite_sinlen v _
  · rw [hostWrite_sin (s := s.setSin j _) hj hoff v, State.setSin_setSin]

end Sys2Proof.Machine
end

section
/-! PROOFS. The decoder and the encoder row by row (30_encoding.md R61 to R66): the OP field picks the row of the opcode
map, and the row's match and mask decide. -/

namespace Sys2Proof.Machine

/-! ### The fields of a command word -/

section
variable (op : BitVec 4) (d a b : SlotNo) (v : Bool)

@[simp] theorem opField_assemble : opField (assemble op d a b v) = op :=
  BitVec.eq_of_getLsbD_eq fun k hk => by grind [opField, assemble_getLsbD]

@[simp] theorem dField_assemble : dField (assemble op d a b v) = d :=
  BitVec.eq_of_getLsbD_eq fun k hk => by grind [dField, assemble_getLsbD]

@[simp] theorem aField_assemble : aField (assemble op d a b v) = a :=
  BitVec.eq_of_getLsbD_eq fun k hk => by grind [aField, assemble_getLsbD]

@[simp] theorem bField_assemble : bField (assemble op d a b v) = b :=
  BitVec.eq_of_getLsbD_eq fun k hk => by grind [bField, assemble_getLsbD]

@[simp] theorem vField_assemble : vField (assemble op d a b v) = v := by
  rw [vField, assemble_getLsbD]; rfl

end

theorem opField_and (c m : Word) : opField (c &&& m) = opField c &&& opField m := BitVec.extractLsb'_and

/-! ### The rows of the opcode map -/

/-- Every mask keeps the whole OP field. -/
theorem opField_mask : ∀ r ∈ commandRows, opField r.mask = BitVec.allOnes 4 := by decide

/-- The OP field tells the rows apart. -/
theorem pattern_eq_of_opField_eq :
    ∀ r ∈ commandRows, ∀ r' ∈ commandRows, opField r.pattern = opField r'.pattern → r.pattern = r'.pattern := by
  decide

/-- Every OP but the reserved 0 has a row. -/
theorem exists_row_of_opField_ne_zero : ∀ op : BitVec 4, op ≠ 0 → ∃ r ∈ commandRows, op = opField r.pattern := by
  decide

section
variable {c : Word} {r : CommandRow} (hr : r ∈ commandRows)
include hr

theorem opField_of_match (h : c &&& r.mask = r.pattern) : opField c = opField r.pattern := by
  rw [← h, opField_and, opField_mask r hr, BitVec.and_allOnes]

/-- The decoder goes to the row of the word's OP and to no other. -/
theorem decode_of_row (hop : opField c = opField r.pattern) : decode c = spells c r.pattern r.mask (r.build c) := by
  fin_cases hr <;> (rw [decode, hop]; rfl)

/-- Encoding the fields a row reads from any word gives the row's match, with the word's own bits outside the mask. -/
theorem encode_build : encode (r.build c) = r.pattern ||| (c &&& ~~~r.mask) := by
  refine BitVec.eq_of_getLsbD_eq fun k hk => ?_
  rw [BitVec.getLsbD_or, BitVec.getLsbD_and]
  fin_cases hr <;> simp only [encode, assemble_getLsbD, BitVec.getLsbD_extractLsb'] <;> interval_cases k <;> simp

end

theorem decode_of_opField_zero {c : Word} (h : opField c = 0) : decode c = .error .reservedOpcode := by
  simp [decode, h]

theorem spells_of_match {c pattern mask : Word} (h : c &&& mask = pattern) (i : Instr) :
    spells c pattern mask i = .ok i := if_pos h

theorem spells_of_mismatch {c pattern mask : Word} (h : c &&& mask ≠ pattern) (i : Instr) :
    spells c pattern mask i = .error (.unusedFieldNotZero (opField c)) := if_neg h

theorem spells_eq_ok_iff {c pattern mask : Word} {i j : Instr} :
    spells c pattern mask i = .ok j ↔ c &&& mask = pattern ∧ i = j := by
  by_cases h : c &&& mask = pattern
  · simp [spells_of_match h, h]
  · simp [spells_of_mismatch h, h]

/-- The decoder accepts the words of the fifteen rows and no others. -/
theorem decode_eq_ok_iff {c : Word} {i : Instr} :
    decode c = .ok i ↔ ∃ r ∈ commandRows, c &&& r.mask = r.pattern ∧ r.build c = i := by
  constructor
  · intro h
    have hop : opField c ≠ 0 := fun h0 => by simp [decode_of_opField_zero h0] at h
    obtain ⟨r, hr, hrow⟩ := exists_row_of_opField_ne_zero _ hop
    rw [decode_of_row hr hrow, spells_eq_ok_iff] at h
    exact ⟨r, hr, h⟩
  · rintro ⟨r, hr, hmatch, rfl⟩
    rw [decode_of_row hr (opField_of_match hr hmatch), spells_of_match hmatch]

/-- The decoder reads back the operands the encoder put into a word, and is left with the check against the row. -/
theorem decode_encode_eq_spells (i : Instr) :
    decode (encode i) = spells (encode i) (Laws.EncodedWord.row i).1 (Laws.EncodedWord.row i).2 i := by
  cases i <;> simp [decode, encode, Laws.EncodedWord.row]

/-! ### Illegal words -/

/-- A word that spells no command is illegal (R63(a), R63(b)). -/
theorem performCommand_of_decode_error {c : Word} {e : DecodeError} (h : decode c = .error e) (s : State) :
    performCommand c s = .next (s.tick.raise .illegalCommand) := by
  simp [performCommand, h]

theorem wf_eq_false_of_slot {p : Params} {i : Instr} {a : SlotNo} (ha : a ∈ i.slots) (h : p.nslot ≤ a.toNat) :
    i.wf p = false :=
  List.all_eq_false.mpr ⟨a, ha, by simpa [Params.hasSlot] using h⟩

/-! ### The statements -/

/-- Settles O1: an encoded word is of its command's row, so the check the decoder is left with passes. -/
theorem decodeEncode : Obligations.DecodeEncode := fun i =>
  (decode_encode_eq_spells i).trans (spells_of_match (Laws.EncodedWord.of_fields i) i)

/-- Settles O2: the bits under the mask are the row's match, and the encoder keeps the others. -/
theorem encodeDecode : Obligations.EncodeDecode := by
  intro c i h
  obtain ⟨r, hr, hmatch, rfl⟩ := decode_eq_ok_iff.mp h
  calc encode (r.build c)
      = (c &&& r.mask) ||| (c &&& ~~~r.mask) := by rw [encode_build hr, hmatch]
    _ = c := by rw [← BitVec.and_or_distrib_left, BitVec.or_not_self, BitVec.and_allOnes]

/-- Settles O3: a word of two rows has the OP of both. -/
theorem opcodeMap : Obligations.OpcodeMap := by
  refine ⟨fun _ _ => decode_eq_ok_iff, fun c r hr r' hr' h h' => pattern_eq_of_opField_eq r hr r' hr' ?_⟩
  rw [← opField_of_match hr h, opField_of_match hr' h']

/-- Settles O4: each word is computed. -/
theorem sampleWords : Obligations.SampleWords := by
  unfold Obligations.SampleWords
  decide

/-- Settles O5: in the first two ways the decoder refuses the word, in the third the command's slot check fails. -/
theorem illegalWord : Obligations.IllegalWord := by
  rintro c s (hop | ⟨r, hr, hop, hmismatch⟩ | ⟨i, hi, a, ha, hslot⟩)
  · exact performCommand_of_decode_error (decode_of_opField_zero hop) s
  · exact performCommand_of_decode_error ((decode_of_row hr hop.symm).trans (spells_of_mismatch hmismatch _)) s
  · exact (performCommand_of_decode hi s).trans (exec_illegal (wf_eq_false_of_slot ha hslot))

end Sys2Proof.Machine
end

section
/-! PROOFS. The accesses of a SEED line (30_encoding.md R70). -/

namespace Sys2Proof.Machine

/-- A memory after the writes of the elements of `t` to the cells from `j` on, in order. -/
def Memory.writeFrom {α : Type} : Memory α → Nat → List α → Memory α
  | m, _, [] => m
  | m, j, x :: t => Memory.writeFrom (m.write j x) (j + 1) t

/-- The cells from `j` on hold the elements written, and every other cell what it held. -/
theorem Memory.read?_writeFrom {α : Type} (t : List α) (m : Memory α) (j k : Nat) :
    Memory.read? (Memory.writeFrom m j t) k =
      if h : j ≤ k ∧ k < j + t.length then some (t[k - j]'(by omega)) else Memory.read? m k := by
  induction t generalizing m j with
  | nil => grind [Memory.writeFrom]
  | cons x t ih => rw [Memory.writeFrom, ih, Memory.read?_write]; grind

section
variable {s : State} {rest : List Input} (released : s.inReset = false)
include released

/-- The step of the write of one character of a SEED line. -/
theorem step_of_sinWrite {j : Nat} {c : Byte} (hwf : s.params.wf = true) (hj : j < s.params.sinCap)
    (hp : s.pending = .write 32 (BitVec.ofNat 24 (0x400000 + 4 * j)) (c.setWidth 32) :: rest) :
    step s = .next { s with pending := rest, sin := s.sin.write j c } := by
  rw [step_of_write released hp, hostWrite_sin (s := { s with pending := rest }) hj (sinOffset_toNat hwf hj),
    BitVec.setWidth_setWidth_of_le _ (by omega), BitVec.setWidth_eq]
  rfl

/-- The step of the write that ends a SEED line. -/
theorem step_of_sinlenWrite {v : Word} (hp : s.pending = .write 32 0x010 v :: rest) :
    step s = .next { s with pending := rest, sinlen := v } :=
  (step_of_write released hp).trans (hostWrite_sinlen v _)

end

/-- The writes of a text to SIN, one a step, as long as the text fits; then `n` steps more. -/
theorem run_sinWrites (n : Nat) (t : List Byte) (j : Nat) (s : State) (rest : List Input)
    (hwf : s.params.wf = true) (released : s.inReset = false) (hfit : j + t.length ≤ s.params.sinCap)
    (hp : s.pending = sinWrites j t ++ rest) :
    Sys2Proof.core.run (t.length + n) s =
      Sys2Proof.core.run n { s with pending := rest, sin := s.sin.writeFrom j t } := by
  induction t generalizing j s with
  | nil => simp [Memory.writeFrom, ← show s.pending = rest from hp]
  | cons c t ih =>
    rw [List.length_cons] at hfit
    have hstep := step_of_sinWrite released hwf (by omega) hp
    have hrest : j + 1 + t.length ≤ s.params.sinCap := by omega
    rw [List.length_cons, Nat.add_right_comm]
    exact (run_succ_of_step hstep _).trans (ih (j + 1) { s with pending := _, sin := _ } hwf released hrest rfl)

/-- Settles O14: the characters are written first, then the length. -/
theorem seedLine : Obligations.SeedLine := by
  intro s t rest hwf released hfit hp
  have hsin : 0 + t.length ≤ s.params.sinCap := by rwa [Nat.zero_add]
  have hchars := run_sinWrites 1 t 0 s _ hwf released hsin (hp.trans (List.append_assoc ..))
  have hlen := step_of_sinlenWrite
    (s := { s with pending := .write 32 0x010 (BitVec.ofNat 32 t.length) :: rest, sin := s.sin.writeFrom 0 t })
    released rfl
  exact ⟨_, hchars.trans (run_succ_of_step hlen 0), rfl, fun j => by simp [Memory.read?_writeFrom]⟩

end Sys2Proof.Machine
end

section
/-! PROOFS. What the statements on single commands share: the encoding (30_encoding.md R62), the slot check (R63(c)), and the
frame of a command that writes one slot (10_state.md R22(c)). -/

namespace Sys2Proof.Machine

/-! ### Encodings and slot checks -/

/-- Every row of the opcode map spells the command it builds (R62). -/
theorem spells_commandRow (k : Nat) (hk : k < commandRows.length) :
    Spells commandRows[k].pattern commandRows[k].mask commandRows[k].build :=
  fun _ h => decode_eq_ok_iff.mpr ⟨commandRows[k], List.getElem_mem hk, h, rfl⟩

theorem all_hasSlot_singleton {p : Params} {d : SlotNo} (hd : d.toNat < p.nslot) : [d].all p.hasSlot = true := by
  simpa [Params.hasSlot] using hd

/-! ### Writing a slot -/

/-- A command whose one write is a slot changes nothing else but CODE. -/
theorem State.changesOnlySlot_putSlot (s : State) (d : SlotNo) (x : Slot) :
    s.ChangesOnlySlot d (s.putSlot d x).succeed :=
  ⟨rfl, fun a ha => by simp [ha]⟩

theorem State.putArray_congr {s : State} {d : SlotNo} {len : Nat} {f g : Nat → Word} (h : ∀ q < len / 32, f q = g q) :
    s.putArray d len f = s.putArray d len g := by
  simp only [State.putArray, Memory.fill_congr _ _ f g h]

@[simp] theorem State.bit_succeed (s : State) (a : SlotNo) (i : Nat) : s.succeed.bit a i = s.bit a i := rfl

end Sys2Proof.Machine
end

section
/-! PROOFS. CREATE and CREATEH (40_create.md): the rounded capacity, the end of each command by the checks it passes, and the
array bits that a hex seed gives. -/

namespace Sys2Proof.Machine

/-! ### The capacity -/

@[simp] theorem roundcap_mod (r : Nat) : roundcap r % 32 = 0 := Nat.mul_mod_right ..

theorem le_roundcap (r : Nat) : r ≤ roundcap r := by unfold roundcap; omega

theorem roundcap_lt (r : Nat) : roundcap r < r + 32 := by unfold roundcap; omega

/-! ### How the commands end on a slot of the block -/

section
variable {s : State} {d : SlotNo} (hd : d.toNat < s.params.nslot)
include hd

theorem exec_create_of_fits (hcap : roundcap s.arg.toNat ≤ 32 * s.params.maxw) :
    exec (.create d) s = .next (s.putArray d (roundcap s.arg.toNat) fun _ => 0).succeed :=
  exec_of_commits (all_hasSlot_singleton hd) ⟨hcap, rfl⟩

theorem exec_create_capacityLimit (hcap : 32 * s.params.maxw < roundcap s.arg.toNat) :
    exec (.create d) s = .next (s.raise .capacityLimit) := by
  simp [exec, execCreate, runCommand_of_slots (all_hasSlot_singleton hd), Params.maxBits, Nat.not_le.mpr hcap]

theorem exec_createh_capacityLimit (hcap : 32 * s.params.maxw < roundcap s.arg.toNat) :
    exec (.createh d) s = .next (s.raise .capacityLimit) := by
  simp [exec, execCreateh, runCommand_of_slots (all_hasSlot_singleton hd), Params.maxBits, Nat.not_le.mpr hcap]

variable (hcap : roundcap s.arg.toNat ≤ 32 * s.params.maxw)
include hcap

theorem exec_createh_seedOverflow (hover : roundcap s.arg.toNat < 4 * s.sinlen.toNat) :
    exec (.createh d) s = .next (s.raise .seedOverflow) := by
  simp [exec, execCreateh, runCommand_of_slots (all_hasSlot_singleton hd), Params.maxBits, hcap, Nat.not_le.mpr hover]

variable (hfit : 4 * s.sinlen.toNat ≤ roundcap s.arg.toNat) (hwritten : s.firstUnwritten s.sinlen.toNat = none)
include hfit hwritten

theorem exec_createh_malformedHexInput (hbad : s.seedIsHex s.sinlen.toNat = false) :
    exec (.createh d) s = .next (s.raise .malformedHexInput) := by
  simp [exec, execCreateh, runCommand_of_slots (all_hasSlot_singleton hd), Params.maxBits, hcap, hfit, hwritten, hbad]

theorem exec_createh_of_fits (hhex : s.seedIsHex s.sinlen.toNat = true) :
    exec (.createh d) s = .next (s.putArray d (roundcap s.arg.toNat)
      (decodeWord (roundcap s.arg.toNat / 4 - s.sinlen.toNat) s.sinChar)).succeed :=
  exec_of_commits (all_hasSlot_singleton hd) ⟨hcap, hfit, hwritten, hhex, rfl⟩

end

/-! ### The padded seed -/

theorem State.seedIsHex_iff {s : State} {n : Nat} :
    s.seedIsHex n = true ↔ ∀ j < n, isHexDigit (s.sinChar j) = true := by
  simp [State.seedIsHex]

/-- A seed of hex digits, padded to a width, is hex digits all through (R83). -/
theorem isHexDigit_paddedChar {width n : Nat} {t : Nat → Byte} (ht : ∀ j < n, isHexDigit (t j) = true) {k : Nat}
    (hk : k < width) : isHexDigit (paddedChar (width - n) t k) = true := by
  unfold paddedChar
  split
  · rfl
  · exact ht _ (by omega)

theorem hexval_paddedChar (pad : Nat) (t : Nat → Byte) (k : Nat) :
    hexval (paddedChar pad t k) = if k < pad then 0 else hexval (t (k - pad)) := by
  unfold paddedChar
  split <;> rfl

/-- A word depends on the characters of the seed alone. -/
theorem decodeWord_congr {pad n q : Nat} {t t' : Nat → Byte} (h : ∀ j < n, t j = t' j) (hq : 8 * q + 8 ≤ pad + n) :
    decodeWord pad t q = decodeWord pad t' q := by
  have hchar (u : Nat) (hu : u < 8) : hexval (paddedChar pad t (8 * q + u)) = hexval (paddedChar pad t' (8 * q + u)) := by
    rw [hexval_paddedChar, hexval_paddedChar]
    split
    · rfl
    · rw [h _ (by omega)]
  rw [decodeWord, decodeWord, List.map_congr_left fun u hu => by rw [hchar u (List.mem_range.mp hu)]]

/-- A word of padding alone is zero. -/
theorem decodeWord_of_padding {pad q : Nat} (h : 8 * q + 8 ≤ pad) (t : Nat → Byte) : decodeWord pad t q = 0 := by
  have hzero (k : Nat) (hk : k < 8 * q + 8) : hexval (paddedChar pad t k) = 0 := by
    rw [hexval_paddedChar, if_pos (by omega)]
  refine BitVec.eq_of_getLsbD_eq fun p hp => ?_
  rw [decodeWord_getLsbD _ _ _ _ hp fun k _ hk => by simp [hzero k hk], hzero _ (by omega)]
  simp

/-- Nibble `k` of the padded text fills array bits 4k .. 4k+3, most significant first (R83). -/
theorem State.bit_putArray_decodeWord (s : State) (d : SlotNo) {len n : Nat} {t : Nat → Byte} (hmod : len % 32 = 0)
    (ht : ∀ j < n, isHexDigit (t j) = true) {k b : Nat} (hk : k < len / 4) (hb : b < 4) :
    (s.putArray d len (decodeWord (len / 4 - n) t)).bit d (4 * k + b) =
      (hexval (paddedChar (len / 4 - n) t k)).testBit (3 - b) := by
  have hq : (4 * k + b) / 32 < len / 32 := by omega
  have hdigits (j : Nat) (_ : 8 * ((4 * k + b) / 32) ≤ j) (hj : j < 8 * ((4 * k + b) / 32) + 8) :
      hexval (paddedChar (len / 4 - n) t j) < 16 := hexval_lt (isHexDigit_paddedChar ht (by omega))
  simp only [State.bit, State.word_putArray, hq, and_self, if_true]
  rw [decodeWord_getLsbD _ _ _ _ (by omega) hdigits]
  congr 3 <;> omega

/-! ### A seed of hex digits the host has written -/

section
variable {s : State} {n : Nat} {t : Nat → Byte}
  (hseed : ∀ j < n, s.sin.read? j = some (t j) ∧ isHexDigit (t j) = true)
include hseed

theorem State.firstUnwritten_of_seed : s.firstUnwritten n = none :=
  State.firstUnwritten_eq_none.mpr fun j hj => by simp [(hseed j hj).1]

theorem State.sinChar_of_seed {j : Nat} (hj : j < n) : s.sinChar j = t j :=
  State.sinChar_of_written (hseed j hj).1

theorem State.seedIsHex_of_seed : s.seedIsHex n = true :=
  State.seedIsHex_iff.mpr fun j hj => (State.sinChar_of_seed hseed hj).symm ▸ (hseed j hj).2

end

/-- On a seed of hex digits that fits, CREATEH completes with the words decoded from it. -/
theorem exec_createh_of_seed {s : State} {d : SlotNo} {t : Nat → Byte} (hd : d.toNat < s.params.nslot)
    (hcap : roundcap s.arg.toNat ≤ 32 * s.params.maxw) (hfit : 4 * s.sinlen.toNat ≤ roundcap s.arg.toNat)
    (hseed : ∀ j < s.sinlen.toNat, s.sin.read? j = some (t j) ∧ isHexDigit (t j) = true) :
    exec (.createh d) s = .next (s.putArray d (roundcap s.arg.toNat)
      (decodeWord (roundcap s.arg.toNat / 4 - s.sinlen.toNat) t)).succeed := by
  rw [exec_createh_of_fits hd hcap hfit (State.firstUnwritten_of_seed hseed) (State.seedIsHex_of_seed hseed),
    State.putArray_congr fun q hq => decodeWord_congr (fun _ => State.sinChar_of_seed hseed) (by omega)]

/-! ### The statements on CREATE and CREATEH -/

/-- Settles O28: the words of the array are filled with zero, and a check that fails comes before the write. -/
theorem createEffect : Obligations.CreateEffect := by
  refine ⟨spells_commandRow 0 (by decide), fun s d => ⟨fun hd hcap => ?_, exec_create_capacityLimit, fun hd => ?_⟩⟩
  · exact ⟨_, exec_create_of_fits hd hcap, s.changesOnlySlot_putSlot d _, by simp, by simp, fun q => by simp⟩
  · exact exec_illegal (wf_eq_false_of_slot List.mem_cons_self hd)

/-- Settles O29: nibble by nibble on success; the errors by the check that fails first. -/
theorem createhEffect : Obligations.CreatehEffect := by
  refine ⟨spells_commandRow 1 (by decide), fun s d => ⟨fun t hd hcap hfit hseed => ?_, fun hd => ?_,
    exec_createh_capacityLimit, exec_createh_seedOverflow, fun hd hcap hfit hwritten ⟨j, hj, c, hc, hbad⟩ => ?_⟩⟩
  · refine ⟨_, exec_createh_of_seed hd hcap hfit hseed, s.changesOnlySlot_putSlot d _, by simp, by simp,
      fun k hk b hb => ?_, fun q hq => by simp [Nat.not_lt.mpr hq]⟩
    have hhex (j : Nat) (hj : j < s.sinlen.toNat) : isHexDigit (t j) = true := (hseed j hj).2
    rw [State.bit_succeed, State.bit_putArray_decodeWord s d (roundcap_mod _) hhex hk hb, hexval_paddedChar]
    split
    · exact Nat.zero_testBit _
    · rfl
  · exact exec_illegal (wf_eq_false_of_slot List.mem_cons_self hd)
  · refine exec_createh_malformedHexInput hd hcap hfit (State.firstUnwritten_eq_none.mpr hwritten) ?_
    refine List.all_eq_false.mpr ⟨j, List.mem_range.mpr hj, ?_⟩
    simp [State.sinChar_of_written hc, hbad]

/-- Settles O32: the two commands check the same slot and capacity, and the text decoded is padding alone. -/
theorem emptySeed : Obligations.EmptySeed := by
  intro s d hempty
  have hn : s.sinlen.toNat = 0 := by simp [hempty]
  obtain hd | hd := Nat.lt_or_ge d.toNat s.params.nslot
  · obtain hcap | hcap := Nat.lt_or_ge (32 * s.params.maxw) (roundcap s.arg.toNat)
    · rw [exec_createh_capacityLimit hd hcap, exec_create_capacityLimit hd hcap]
    · have hfit : 4 * s.sinlen.toNat ≤ roundcap s.arg.toNat := by simp [hn]
      have hwritten : s.firstUnwritten s.sinlen.toNat = none := by rw [hn]; rfl
      have hhex : s.seedIsHex s.sinlen.toNat = true := by rw [hn]; rfl
      rw [exec_create_of_fits hd hcap, exec_createh_of_fits hd hcap hfit hwritten hhex,
        State.putArray_congr fun q hq => decodeWord_of_padding (by omega) _]
  · rw [exec_illegal (wf_eq_false_of_slot List.mem_cons_self hd),
      exec_illegal (wf_eq_false_of_slot List.mem_cons_self hd)]

/-- Settles O27: the rounding is arithmetic, and both commands check its result against MAXBITS as it is. -/
theorem capacityRounding : Obligations.CapacityRounding :=
  ⟨fun r => ⟨roundcap_mod r, le_roundcap r, roundcap_lt r⟩, rfl, rfl, rfl, rfl, rfl, fun _ _ hd hcap =>
    ⟨exec_create_capacityLimit hd hcap, exec_createh_capacityLimit hd hcap⟩⟩

/-- Settles O30: with a seed that fits, the command stops at an unwritten cell, reports a bad character, or completes. -/
theorem seedOverflow : Obligations.SeedOverflow := by
  intro s d hd hcap
  refine ⟨exec_createh_seedOverflow hd hcap, fun hfit t ht => ?_⟩
  cases hwritten : s.firstUnwritten s.sinlen.toNat with
  | some j =>
    obtain ⟨hj, hnone, hbefore⟩ := State.firstUnwritten_eq_some.mp hwritten
    simp [createhUnwrittenCell s d j hd hcap hfit hj hnone hbefore] at ht
  | none =>
    cases hhex : s.seedIsHex s.sinlen.toNat with
    | false =>
      rw [exec_createh_malformedHexInput hd hcap hfit hwritten hhex] at ht
      cases ht
      simp [ErrorCode.code]
    | true =>
      rw [exec_createh_of_fits hd hcap hfit hwritten hhex] at ht
      cases ht
      simp

/-! ### The round trip through TOHEX -/

/-- The nibble a hex character is the digit of, bit by bit (R122). -/
theorem State.hexNibble_testBit (s : State) (a : SlotNo) (k : Nat) {j : Nat} (hj : j < 4) :
    ((s.word a (k / 8) >>> (4 * (7 - k % 8))) &&& 0xF#32).toNat.testBit j = s.bit a (4 * k + (3 - j)) := by
  have hmask : (0xF#32).getLsbD j = true := by interval_cases j <;> rfl
  rw [BitVec.testBit_toNat, BitVec.getLsbD_and, hmask, Bool.and_true, BitVec.getLsbD_ushiftRight, State.bit]
  congr 2 <;> omega

/-- A hex character is the digit of the value whose bits are the four array bits, most significant first (R122). -/
theorem State.hexChar_of_bits {s : State} {a : SlotNo} {k v : Nat} (hv : v < 16)
    (hbits : ∀ b < 4, s.bit a (4 * k + b) = v.testBit (3 - b)) : s.hexChar a k = hexchar v := by
  unfold State.hexChar
  congr 1
  refine Nat.eq_of_testBit_eq fun j => ?_
  by_cases hj : j < 4
  · rw [State.hexNibble_testBit s a k hj, hbits (3 - j) (by omega), show 3 - (3 - j) = j by omega]
  · have hpow : 2 ^ 4 ≤ 2 ^ j := Nat.pow_le_pow_right (by decide) (by omega)
    have hnibble (w : Word) : (w &&& 0xF#32).toNat < 2 ^ 4 := by
      rw [BitVec.toNat_and]
      exact Nat.and_lt_two_pow _ (by decide)
    rw [Nat.testBit_lt_two_pow ((hnibble _).trans_le hpow), Nat.testBit_lt_two_pow (hv.trans_le hpow)]

/-- The encoder's digit of a hex digit's value is the digit in lower case (R14). -/
theorem hexchar_hexval {c : Byte} (h : isHexDigit c = true) : hexchar (hexval c) = lowercase c := by
  obtain ⟨hlo, hhi⟩ | ⟨hlo, hhi⟩ | ⟨hlo, hhi⟩ := (hexDigits.1 c).mp h
  · have hdigit : c.toNat - 0x30 < 10 := by omega
    have hupper : ¬ 0x41 ≤ c.toNat := by omega
    rw [hexval, if_pos hhi, hexchar, if_pos hdigit, lowercase, if_neg (fun h => hupper h.1)]
    bv_omega
  · have hletter : ¬ c.toNat - 0x41 + 10 < 10 := by omega
    have hdecimal : ¬ c.toNat ≤ 0x39 := by omega
    rw [hexval, if_neg hdecimal, if_pos hhi, hexchar, if_neg hletter, lowercase, if_pos ⟨hlo, hhi⟩]
    bv_omega
  · have hletter : ¬ c.toNat - 0x61 + 10 < 10 := by omega
    have hdecimal : ¬ c.toNat ≤ 0x39 := by omega
    have hupper : ¬ c.toNat ≤ 0x46 := by omega
    rw [hexval, if_neg hdecimal, if_neg hupper, hexchar, if_neg hletter, lowercase, if_neg (fun h => hupper h.2)]
    bv_omega

/-- The text of an array decoded from a seed is the padded seed in lower case (R86). -/
theorem State.hexChar_putArray_decodeWord (s : State) (d : SlotNo) {len n : Nat} {t : Nat → Byte} (hmod : len % 32 = 0)
    (ht : ∀ j < n, isHexDigit (t j) = true) {k : Nat} (hk : k < len / 4) :
    (s.putArray d len (decodeWord (len / 4 - n) t)).hexChar d k = lowercase (paddedChar (len / 4 - n) t k) := by
  have hdigit := isHexDigit_paddedChar ht hk
  rw [State.hexChar_of_bits (hexval_lt hdigit) fun b hb => s.bit_putArray_decodeWord d hmod ht hk hb,
    hexchar_hexval hdigit]

theorem lowercase_paddedChar (pad : Nat) (t : Nat → Byte) (k : Nat) :
    lowercase (paddedChar pad t k) = if k < pad then 0x30 else lowercase (t (k - pad)) := by
  unfold paddedChar
  split <;> rfl

@[simp] theorem State.hexChar_succeed (s : State) (a : SlotNo) (k : Nat) : s.succeed.hexChar a k = s.hexChar a k := rfl

/-- TOHEX of a valid slot writes its text (R122). -/
theorem exec_tohex_of_valid {s : State} {a : SlotNo} (ha : a.toNat < s.params.nslot) (hv : (s.slot a).valid = true) :
    exec (.tohex a) s = .next (s.putText ((s.slot a).len / 4) (s.hexChar a)).succeed :=
  exec_of_commits (all_hasSlot_singleton ha) ⟨State.allValid_singleton.trans hv, rfl⟩

/-- Settles O52: TOHEX writes the digit of each nibble, and the nibbles are the values of the padded seed's digits. -/
theorem seedRoundTrip : Obligations.SeedRoundTrip := by
  intro s d t hd hcap hfit hseed
  have hhex (j : Nat) (hj : j < s.sinlen.toNat) : isHexDigit (t j) = true := (hseed j hj).2
  refine ⟨_, _, exec_createh_of_seed hd hcap hfit hseed, exec_tohex_of_valid hd (by simp), by simp, fun k hk => ?_⟩
  simp only [State.succeed_sout, State.putText_sout, State.slot_succeed, State.slot_putArray, if_true,
    Memory.read?_fill, hk, State.hexChar_succeed]
  rw [State.hexChar_putArray_decodeWord s d (roundcap_mod _) hhex hk, lowercase_paddedChar]

end Sys2Proof.Machine
end

section
/-! PROOFS. The mapper and the bit accesses GET, SET and TOGGLE (41_bit_access.md): the errors they share, the bit GET
reads, and the one bit SET and TOGGLE write. -/

namespace Sys2Proof.Machine

/-! ### The mapper -/

section
variable (i : Word) (len : Nat)

@[simp] theorem mapIndex_wordIndex : (mapIndex i len).wordIndex = i.toNat / 32 := wordIndex_eq i

@[simp] theorem mapIndex_offset : (mapIndex i len).offset = i.toNat % 32 := offset_eq i

theorem mapIndex_inRange_iff : (mapIndex i len).inRange = true ↔ i.toNat < len := decide_eq_true_iff

theorem mapIndex_mask_eq_topBit_shift : (mapIndex i len).mask = 0x80000000#32 >>> (i.toNat % 32) := by
  rw [← offset_eq]; rfl

/-- The mask is the power of two of the weight the mapper gives the index. -/
theorem mapIndex_mask_eq_shiftLeft : (mapIndex i len).mask = 1#32 <<< (31 - i.toNat % 32) := by
  refine BitVec.eq_of_getLsbD_eq fun j _ => ?_
  have hweight : 31 - i.toNat % 32 < 32 := by omega
  rw [mapIndex_mask_getLsbD, ← BitVec.twoPow_eq, BitVec.getLsbD_twoPow]
  simp [hweight, eq_comm (a := j)]

/-- The mask picks the array bit at the index (R90). -/
theorem State.word_and_mask_ne_zero (s : State) (a : SlotNo) :
    s.word a (mapIndex i len).wordIndex &&& (mapIndex i len).mask ≠ 0 ↔ s.bit a i.toNat = true := by
  rw [mapIndex_wordIndex]
  exact and_mask_ne_zero (by omega) fun j _ => mapIndex_mask_getLsbD i len j

end

/-- Settles O34: the fields are quotient and remainder by 32, and the mask is read bit by bit. -/
theorem mapper : Obligations.Mapper := fun i len =>
  ⟨mapIndex_inRange_iff i len, mapIndex_wordIndex i len, rfl, mapIndex_offset i len, rfl,
    mapIndex_mask_eq_shiftLeft i len, mapIndex_mask_eq_topBit_shift i len, State.word_and_mask_ne_zero i len,
    fun hmod hi => mapIndex_wordIndex_lt hmod ((mapIndex_inRange_iff i len).mp hi)⟩

/-! ### The checks of a bit access -/

/-- The commands that access the bit of index ARG of slot `a`. -/
inductive BitAccess (a : SlotNo) : Instr → Prop
  | get : BitAccess a (.get a)
  | set (v : Bool) : BitAccess a (.set a v)
  | toggle : BitAccess a (.toggle a)

section
variable {s : State} {a : SlotNo} {i : Instr} (hi : BitAccess a i)
include hi

/-- The three commands run one body, but for the writes they make. -/
theorem BitAccess.exec_eq (s : State) : ∃ k, exec i s = runCommand s [a] (withBit s a k) := by
  cases hi <;> exact ⟨_, rfl⟩

theorem BitAccess.exec_illegal (ha : s.params.nslot ≤ a.toNat) : exec i s = .next (s.raise .illegalCommand) := by
  obtain ⟨k, hk⟩ := hi.exec_eq s
  rw [hk, runCommand_illegal (by simpa [Params.hasSlot] using ha)]

variable (ha : a.toNat < s.params.nslot)
include ha

theorem BitAccess.exec_slotUnallocated (hv : (s.slot a).valid = false) :
    exec i s = .next (s.raise .slotUnallocated) := by
  obtain ⟨k, hk⟩ := hi.exec_eq s
  rw [hk, runCommand_of_slots (all_hasSlot_singleton ha)]
  simp [withBit, hv]

variable (hv : (s.slot a).valid = true)
include hv

theorem BitAccess.exec_indexOutOfRange (hout : (s.slot a).len ≤ s.arg.toNat) :
    exec i s = .next (s.raise .indexOutOfRange) := by
  have hrange : (mapIndex s.arg (s.slot a).len).inRange = false := decide_eq_false (Nat.not_lt.mpr hout)
  obtain ⟨k, hk⟩ := hi.exec_eq s
  rw [hk, runCommand_of_slots (all_hasSlot_singleton ha)]
  simp [withBit, hv, hrange]

theorem BitAccess.exec_succeeds (hin : s.arg.toNat < (s.slot a).len) : ∃ u, exec i s = .next (State.succeed u) := by
  have hrange := (mapIndex_inRange_iff s.arg (s.slot a).len).mpr hin
  obtain ⟨k, hk⟩ := hi.exec_eq s
  rw [hk, runCommand_of_slots (all_hasSlot_singleton ha)]
  simp [withBit, hv, hrange]

end

/-- Settles O38: the range check is the last one, so it alone decides between success and INDEX_OUT_OF_RANGE. -/
theorem rangeCheck : Obligations.RangeCheck := by
  intro s a i hi ha hv
  have access : BitAccess a i := by
    obtain rfl | ⟨v, rfl⟩ | rfl := hi
    exacts [.get, .set v, .toggle]
  obtain hin | hout := Nat.lt_or_ge s.arg.toNat (s.slot a).len
  · obtain ⟨u, hu⟩ := access.exec_succeeds ha hv hin
    exact ⟨⟨fun _ => hin, fun _ => ⟨_, hu, rfl⟩⟩, absurd hin⟩
  · have herr := access.exec_indexOutOfRange ha hv hout
    refine ⟨⟨fun ⟨t, ht, hcode⟩ => ?_, fun hin => absurd hin (Nat.not_lt.mpr hout)⟩, fun _ => herr⟩
    cases herr.symm.trans ht
    exact absurd hcode (ErrorCode.code_range .indexOutOfRange).1

/-! ### Reading a bit -/

theorem exec_get_of_inRange {s : State} {a : SlotNo} (ha : a.toNat < s.params.nslot) (hv : (s.slot a).valid = true)
    (hin : s.arg.toNat < (s.slot a).len) :
    exec (.get a) s = .next (s.setResult (if s.bit a s.arg.toNat then 1 else 0)).succeed :=
  exec_of_commits (all_hasSlot_singleton ha)
    ⟨State.allValid_singleton.trans hv, hin, by simp only [State.word_and_mask_ne_zero]⟩

/-- Settles O35: RESULT is the bit the mask picks; the errors are those of every bit access. -/
theorem getEffect : Obligations.GetEffect :=
  ⟨spells_commandRow 2 (by decide), fun _ _ => ⟨exec_get_of_inRange, BitAccess.get.exec_indexOutOfRange,
    BitAccess.get.exec_slotUnallocated, BitAccess.get.exec_illegal⟩⟩

/-! ### Writing a bit -/

/-- `t` is `s` after a command that completed: CODE aside, it changed the bit of index ARG of slot `d` alone, from its
value `x` to `f x` (R93, R94). -/
structure State.BitUpdated (s : State) (d : SlotNo) (f : Bool → Bool) (t : State) : Prop where
  frame : s.ChangesOnlySlot d t
  valid : (t.slot d).valid = (s.slot d).valid
  len : (t.slot d).len = (s.slot d).len
  bits : ∀ i, t.bit d i = if i = s.arg.toNat then f (s.bit d i) else s.bit d i

/-- A word that differs from the word an index falls in at the mask's bit alone, written there, updates the bit of that
index. -/
theorem State.bit_putWord_mapIndex {s : State} {d : SlotNo} {i w : Word} {len : Nat} {f : Bool → Bool}
    (hw : ∀ p < 32, w.getLsbD p =
      if (mapIndex i len).mask.getLsbD p then f ((s.word d (i.toNat / 32)).getLsbD p)
      else (s.word d (i.toNat / 32)).getLsbD p) (j : Nat) :
    (s.putWord d (mapIndex i len).wordIndex w).bit d j = if j = i.toNat then f (s.bit d j) else s.bit d j := by
  simp only [State.bit, State.word_putWord, mapIndex_wordIndex, true_and]
  by_cases hword : j / 32 = i.toNat / 32
  · have hbit : 31 - j % 32 = 31 - i.toNat % 32 ↔ j = i.toNat := by omega
    rw [if_pos hword, hw _ (by omega), mapIndex_mask_getLsbD]
    simp only [decide_eq_true_eq, hbit, hword]
  · have hne : j ≠ i.toNat := fun h => hword (by rw [h])
    rw [if_neg hword, if_neg hne]

/-- SET's word: under the mask the new value, elsewhere the old bit (R93). -/
theorem setMask_getLsbD (w m : Word) (v : Bool) {p : Nat} (hp : p < 32) :
    (if v then w ||| m else w &&& ~~~m).getLsbD p = if m.getLsbD p then v else w.getLsbD p := by
  cases v
  · rw [if_neg Bool.false_ne_true, BitVec.getLsbD_and, BitVec.getLsbD_not]
    cases m.getLsbD p <;> simp [hp]
  · rw [if_pos rfl, BitVec.getLsbD_or]
    cases m.getLsbD p <;> simp

/-- TOGGLE's word: under the mask the inverted bit, elsewhere the old bit (R94). -/
theorem xorMask_getLsbD (w m : Word) (p : Nat) :
    (w ^^^ m).getLsbD p = if m.getLsbD p then !w.getLsbD p else w.getLsbD p := by
  rw [BitVec.getLsbD_xor]
  cases m.getLsbD p <;> simp

section
variable {s : State} {d : SlotNo} (hd : d.toNat < s.params.nslot) (hv : (s.slot d).valid = true)
  (hin : s.arg.toNat < (s.slot d).len)
include hd hv hin

theorem exec_set_of_inRange (v : Bool) : ∃ t, exec (.set d v) s = .next t ∧ s.BitUpdated d (fun _ => v) t := by
  refine ⟨_, exec_of_commits (all_hasSlot_singleton hd) ⟨State.allValid_singleton.trans hv, hin, rfl⟩,
    s.changesOnlySlot_putSlot d _, by simp, by simp, fun i => ?_⟩
  rw [State.bit_succeed]
  refine State.bit_putWord_mapIndex (f := fun _ => v) (fun p hp => ?_) i
  rw [setMask_getLsbD _ _ _ hp, mapIndex_wordIndex]

theorem exec_toggle_of_inRange : ∃ t, exec (.toggle d) s = .next t ∧ s.BitUpdated d (!·) t := by
  refine ⟨_, exec_of_commits (all_hasSlot_singleton hd) ⟨State.allValid_singleton.trans hv, hin, rfl⟩,
    s.changesOnlySlot_putSlot d _, by simp, by simp, fun i => ?_⟩
  rw [State.bit_succeed]
  refine State.bit_putWord_mapIndex (f := (!·)) (fun p _ => ?_) i
  rw [xorMask_getLsbD, mapIndex_wordIndex]

end

/-- Settles O36: the mask's bit of the word is V; the errors are those of every bit access. -/
theorem setEffect : Obligations.SetEffect := by
  refine ⟨spells_commandRow 3 (by decide), fun s d v => ⟨fun hd hv hin => ?_, (BitAccess.set v).exec_indexOutOfRange,
    (BitAccess.set v).exec_slotUnallocated, (BitAccess.set v).exec_illegal⟩⟩
  obtain ⟨t, ht, hupd⟩ := exec_set_of_inRange hd hv hin v
  exact ⟨t, ht, hupd.frame, hupd.valid.trans hv, hupd.len, hupd.bits⟩

/-- Settles O37: the mask's bit of the word is inverted; the errors are those of every bit access. -/
theorem toggleEffect : Obligations.ToggleEffect := by
  refine ⟨spells_commandRow 4 (by decide), fun s d => ⟨fun hd hv hin => ?_, BitAccess.toggle.exec_indexOutOfRange,
    BitAccess.toggle.exec_slotUnallocated, BitAccess.toggle.exec_illegal⟩⟩
  obtain ⟨t, ht, hupd⟩ := exec_toggle_of_inRange hd hv hin
  exact ⟨t, ht, hupd.frame, hupd.valid.trans hv, hupd.len, hupd.bits⟩

/-! ### Two bit accesses in a row -/

section
variable {s t : State} {d : SlotNo} (h : s.ChangesOnlySlot d t)
include h

theorem State.ChangesOnlySlot.params_eq : t.params = s.params := (congrArg State.params h.1 :)

theorem State.ChangesOnlySlot.arg_eq : t.arg = s.arg := (congrArg State.arg h.1 :)

theorem State.ChangesOnlySlot.bit_of_ne {a : SlotNo} (ha : a ≠ d) (i : Nat) : t.bit a i = s.bit a i := by
  have hwords : (t.slot a).words = (s.slot a).words := by rw [h.2 a ha]
  have hresets : t.resets = s.resets := (congrArg State.resets h.1 :)
  simp only [State.bit, State.word_congr hwords hresets]

end

section
variable {s t u : State} {d : SlotNo} {f g : Bool → Bool} (h : s.BitUpdated d f t)
include h

/-- The next command finds the slot in order and the index in range again. -/
theorem State.BitUpdated.inRange (hd : d.toNat < s.params.nslot) (hv : (s.slot d).valid = true)
    (hin : s.arg.toNat < (s.slot d).len) :
    d.toNat < t.params.nslot ∧ (t.slot d).valid = true ∧ t.arg.toNat < (t.slot d).len := by
  rw [h.frame.params_eq, h.valid, h.frame.arg_eq, h.len]
  exact ⟨hd, hv, hin⟩

/-- Two updates that undo each other restore every bit. -/
theorem State.BitUpdated.bit_restored (h' : t.BitUpdated d g u) (hfg : ∀ x, g (f x) = x) (a : SlotNo) (i : Nat) :
    u.bit a i = s.bit a i := by
  by_cases had : a = d
  · subst had
    rw [h'.bits, h.bits, h.frame.arg_eq]
    split
    · exact hfg _
    · rfl
  · rw [h'.frame.bit_of_ne had, h.frame.bit_of_ne had]

end

/-- Settles O39: the second command finds ARG and the slot's capacity as the first did. -/
theorem bitLaws : Obligations.BitLaws := by
  intro s d hd hv hin
  constructor
  · intro v
    obtain ⟨t, ht, hupd⟩ := exec_set_of_inRange hd hv hin v
    obtain ⟨hd', hv', hin'⟩ := hupd.inRange hd hv hin
    have hbit : t.bit d t.arg.toNat = v := by rw [hupd.bits, hupd.frame.arg_eq, if_pos rfl]
    exact ⟨t, _, ht, exec_get_of_inRange hd' hv' hin', by simp [hbit]⟩
  · obtain ⟨t, ht, hupd⟩ := exec_toggle_of_inRange hd hv hin
    obtain ⟨hd', hv', hin'⟩ := hupd.inRange hd hv hin
    obtain ⟨u, hu, hupd'⟩ := exec_toggle_of_inRange hd' hv' hin'
    exact ⟨t, u, ht, hu, hupd.bit_restored hupd' Bool.not_not⟩

end Sys2Proof.Machine
end

section
/-! PROOFS. What the commands that read slots share: the slot checks of several operands (30_encoding.md R63(c)), and
SLOT_UNALLOCATED, the first check of the body of every one of them (60_exceptions.md R130, R132). -/

namespace Sys2Proof.Machine

theorem all_hasSlot_pair {p : Params} {a b : SlotNo} (ha : a.toNat < p.nslot) (hb : b.toNat < p.nslot) :
    [a, b].all p.hasSlot = true := by
  simpa [Params.hasSlot] using ⟨ha, hb⟩

theorem State.allValid_eq_false {s : State} {a : SlotNo} {as : List SlotNo} (ha : a ∈ as)
    (hv : (s.slot a).valid = false) : s.allValid as = false :=
  List.all_eq_false.mpr ⟨a, ha, by simp [hv]⟩

/-- A command that reads slots runs a body that first checks that they are valid. -/
theorem exec_eq_require_allValid {i : Instr} (h : i.sources ≠ []) (s : State) :
    ∃ k, exec i s = runCommand s i.slots (.require (s.allValid i.sources) .slotUnallocated k) := by
  cases i
  case create | createh => exact absurd rfl h
  all_goals exact ⟨_, rfl⟩

/-- A command on slots of the block that reads one without an array reports SLOT_UNALLOCATED (R130). -/
theorem exec_slotUnallocated {i : Instr} {s : State} {a : SlotNo} (hw : i.wf s.params = true) (ha : a ∈ i.sources)
    (hv : (s.slot a).valid = false) : exec i s = .next (s.raise .slotUnallocated) := by
  obtain ⟨k, hk⟩ := exec_eq_require_allValid (List.ne_nil_of_mem ha) s
  rw [hk, runCommand_of_slots hw, State.allValid_eq_false ha hv]
  rfl

end Sys2Proof.Machine
end

section
/-! PROOFS. SIZE, COUNT, EQUALS and COPY (42_query_copy.md): the end of each command on valid slots, and what the results
say of one another. -/

namespace Sys2Proof.Machine

/-! ### SIZE and COUNT -/

section
variable {s : State} {a : SlotNo} (ha : a.toNat < s.params.nslot) (hv : (s.slot a).valid = true)
include ha hv

theorem exec_size_of_valid :
    exec (.size a) s = .next (s.setResult (BitVec.ofNat 32 (s.slot a).len)).succeed :=
  exec_of_commits (all_hasSlot_singleton ha) ⟨State.allValid_singleton.trans hv, rfl⟩

theorem exec_count_of_valid : exec (.count a) s = .next (s.setResult (BitVec.ofNat 32 (s.popcount a))).succeed :=
  exec_of_commits (all_hasSlot_singleton ha) ⟨State.allValid_singleton.trans hv, rfl⟩

/-- TOBIN of a valid slot writes its text (R121). -/
theorem exec_tobin_of_valid : exec (.tobin a) s = .next (s.putText (s.slot a).len (s.binChar a)).succeed :=
  exec_of_commits (all_hasSlot_singleton ha) ⟨State.allValid_singleton.trans hv, rfl⟩

end

/-- Settles O40: LEN goes to RESULT once the two checks have passed. -/
theorem sizeEffect : Obligations.SizeEffect :=
  ⟨spells_commandRow 5 (by decide), fun _ _ => ⟨exec_size_of_valid,
    fun ha => exec_slotUnallocated (all_hasSlot_singleton ha) List.mem_cons_self,
    fun ha => exec_illegal (wf_eq_false_of_slot List.mem_cons_self ha)⟩⟩

/-- Settles O41: the sum of the words' counts is the count of the array's bits. -/
theorem countEffect : Obligations.CountEffect :=
  ⟨spells_commandRow 6 (by decide), fun s a => ⟨fun ha hv => s.popcount_eq a ▸ exec_count_of_valid ha hv,
    fun ha => exec_slotUnallocated (all_hasSlot_singleton ha) List.mem_cons_self,
    fun ha => exec_illegal (wf_eq_false_of_slot List.mem_cons_self ha)⟩⟩

/-- The binary text shows a bit that is 1, and no other, as '1' (R121). -/
theorem State.binChar_eq_one_iff {s : State} {a : SlotNo} {j : Nat} : s.binChar a j = 0x31#8 ↔ s.bit a j = true := by
  unfold State.binChar
  cases s.bit a j <;> decide

/-- Settles O54: the array bits counted are the ones the text shows, LEN of them when LEN is a multiple of 32. -/
theorem countIsOnesOfText : Obligations.CountIsOnesOfText := by
  intro s a ha hv hmod
  have hbits : 32 * ((s.slot a).len / 32) = (s.slot a).len := by omega
  refine ⟨_, _, exec_tobin_of_valid ha hv, exec_count_of_valid ha hv, congrArg (BitVec.ofNat 32) ?_⟩
  rw [State.popcount_eq, hbits]
  refine List.countP_congr fun j hj => ?_
  simp [List.mem_range.mp hj, State.binChar_eq_one_iff]

/-! ### EQUALS -/

/-- Slots `a` and `b` hold equal arrays: one capacity, and equal words over it (R102). -/
def State.SameArray (s : State) (a b : SlotNo) : Prop :=
  (s.slot a).len = (s.slot b).len ∧ ∀ q < (s.slot a).len / 32, s.word a q = s.word b q

theorem State.sameArray_iff {s : State} {a b : SlotNo} :
    s.SameArray a b ↔ (s.slot a).len = (s.slot b).len ∧ s.sameWords a b = true := by
  simp [State.SameArray, State.sameWords]

theorem State.sameArray_refl (s : State) (a : SlotNo) : s.SameArray a a := ⟨rfl, fun _ _ => rfl⟩

section
variable {s : State} {a b : SlotNo} (ha : a.toNat < s.params.nslot) (hb : b.toNat < s.params.nslot)
  (hva : (s.slot a).valid = true) (hvb : (s.slot b).valid = true)
include ha hb hva hvb

theorem exec_equals_of_sameArray (h : s.SameArray a b) : exec (.equals a b) s = .next (s.setResult 1).succeed :=
  exec_of_commits (all_hasSlot_pair ha hb)
    ⟨State.allValid_pair.mpr ⟨hva, hvb⟩, by rw [if_pos (State.sameArray_iff.mp h)]⟩

theorem exec_equals_of_not_sameArray (h : ¬ s.SameArray a b) :
    exec (.equals a b) s = .next (s.setResult 0).succeed :=
  exec_of_commits (all_hasSlot_pair ha hb)
    ⟨State.allValid_pair.mpr ⟨hva, hvb⟩, by rw [if_neg (State.sameArray_iff.not.mp h)]⟩

end

/-- Settles O42: RESULT tells whether the arrays are equal; they differ in a word or in capacity otherwise. -/
theorem equalsEffect : Obligations.EqualsEffect := by
  refine ⟨spells_commandRow 7 (by decide), fun s a b => ⟨fun ha hb hva hvb => ⟨fun hlen hwords => ?_,
    fun _ ⟨q, hq, hne⟩ => ?_, fun hlen => ?_⟩, fun ha hb hv => ?_, fun hslot => ?_⟩⟩
  · exact exec_equals_of_sameArray ha hb hva hvb ⟨hlen, hwords⟩
  · exact exec_equals_of_not_sameArray ha hb hva hvb fun h => hne (h.2 q hq)
  · exact exec_equals_of_not_sameArray ha hb hva hvb fun h => hlen h.1
  · obtain hv | hv := hv <;> exact exec_slotUnallocated (all_hasSlot_pair ha hb) (by simp [Instr.sources]) hv
  · obtain h | h := hslot <;> exact exec_illegal (wf_eq_false_of_slot (by simp [Instr.slots]) h)

/-! ### COPY -/

theorem exec_copy_of_valid {s : State} {d a : SlotNo} (hd : d.toNat < s.params.nslot) (ha : a.toNat < s.params.nslot)
    (hv : (s.slot a).valid = true) :
    exec (.copy d a) s = .next (s.putArray d (s.slot a).len (s.word a)).succeed :=
  exec_of_commits (all_hasSlot_pair hd ha) ⟨State.allValid_singleton.trans hv, rfl⟩

/-- A slot written whole with the capacity and words of another holds an array equal to it. -/
theorem State.sameArray_putArray_word (s : State) (d a : SlotNo) :
    (s.putArray d (s.slot a).len (s.word a)).succeed.SameArray d a := by
  refine ⟨?_, fun q hq => ?_⟩
  · by_cases had : a = d <;> simp [had]
  · have hq' : q < (s.slot a).len / 32 := by simpa using hq
    simp [hq']

/-- Settles O43: slot D is written whole from slot A, which alone is checked to be valid. -/
theorem copyEffect : Obligations.CopyEffect := by
  refine ⟨spells_commandRow 8 (by decide), fun s d a => ⟨fun hd ha hv => ?_, fun hd ha => ?_, fun hslot => ?_⟩⟩
  · exact ⟨_, exec_copy_of_valid hd ha hv, s.changesOnlySlot_putSlot d _, by simp, by simp, fun q => by simp⟩
  · exact exec_slotUnallocated (all_hasSlot_pair hd ha) List.mem_cons_self
  · obtain h | h := hslot <;> exact exec_illegal (wf_eq_false_of_slot (by simp [Instr.slots]) h)

/-- Settles O44: an array is equal to itself and to its copy, and to none of another capacity. -/
theorem equalityLaws : Obligations.EqualityLaws := by
  intro s d a hd ha hv
  refine ⟨⟨_, exec_equals_of_sameArray ha ha hv hv (s.sameArray_refl a), rfl⟩,
    ⟨_, _, exec_copy_of_valid hd ha hv,
      exec_equals_of_sameArray hd ha (by simp) ?_ (s.sameArray_putArray_word d a), rfl⟩,
    fun hvd hlen => ⟨_, exec_equals_of_not_sameArray hd ha hvd hv fun h => hlen h.1, rfl, rfl⟩⟩
  by_cases had : a = d <;> simp [had, hv]

end Sys2Proof.Machine
end

section
/-! PROOFS. NOT, AND, OR and XOR (43_boolean.md): the end of each command on valid slots, word by word, and what it does
to each array bit. -/

namespace Sys2Proof.Machine

/-! ### The bits of an array written word by word -/

section
variable (s : State) (d : SlotNo) (f : Nat → Word) {j : Nat}

theorem State.bit_putArray {len : Nat} (hj : j < 32 * (len / 32)) :
    (s.putArray d len f).bit d j = (f (j / 32)).getLsbD (31 - j % 32) := by
  have hq : j / 32 < len / 32 := by omega
  simp [State.bit, hq]

theorem State.bit_putWords (hj : j < 32 * ((s.slot d).len / 32)) :
    (s.putWords d f).bit d j = (f (j / 32)).getLsbD (31 - j % 32) := by
  have hq : j / 32 < (s.slot d).len / 32 := by omega
  simp [State.bit, hq]

end

/-! ### NOT -/

theorem exec_not_of_valid {s : State} {d : SlotNo} (hd : d.toNat < s.params.nslot) (hv : (s.slot d).valid = true) :
    exec (.not d) s = .next (s.putWords d fun q => ~~~(s.word d q)).succeed :=
  exec_of_commits (all_hasSlot_singleton hd) ⟨State.allValid_singleton.trans hv, rfl⟩

/-- NOT inverts each array bit by itself (R115). -/
theorem State.bit_putWords_not (s : State) (d : SlotNo) {j : Nat} (hj : j < 32 * ((s.slot d).len / 32)) :
    (s.putWords d fun q => ~~~(s.word d q)).bit d j = !s.bit d j := by
  have hweight : 31 - j % 32 < 32 := by omega
  rw [State.bit_putWords _ _ _ hj, BitVec.getLsbD_not, decide_eq_true hweight, Bool.true_and, State.bit]

/-- Settles O45: the complement of a word is its XOR with all ones. -/
theorem notEffect : Obligations.NotEffect := by
  refine ⟨spells_commandRow 9 (by decide), fun s d => ⟨fun hd hv => ?_, fun hd => ?_, fun hd => ?_⟩⟩
  · have hones (w : Word) : ~~~w = w ^^^ 0xFFFFFFFF := BitVec.xor_allOnes.symm
    exact ⟨_, exec_not_of_valid hd hv, s.changesOnlySlot_putSlot d _, by simp [hv], by simp, fun q => by simp [hones]⟩
  · exact exec_slotUnallocated (all_hasSlot_singleton hd) List.mem_cons_self
  · exact exec_illegal (wf_eq_false_of_slot List.mem_cons_self hd)

/-! ### AND, OR and XOR -/

theorem wf_of_slots_lt {p : Params} {i : Instr} (h : ∀ a ∈ i.slots, a.toNat < p.nslot) : i.wf p = true :=
  List.all_eq_true.mpr fun a ha => by simpa [Params.hasSlot] using h a ha

/-- The commands that write the word-wise `op` of slots `a` and `b` to slot `d` (R111). -/
inductive WordWise (d a b : SlotNo) : (Word → Word → Word) → Instr → Prop
  | and : WordWise d a b (· &&& ·) (.and d a b)
  | or : WordWise d a b (· ||| ·) (.or d a b)
  | xor : WordWise d a b (· ^^^ ·) (.xor d a b)

section
variable {d a b : SlotNo} {op : Word → Word → Word} {i : Instr} (hi : WordWise d a b op i)
include hi

theorem WordWise.exec_eq (s : State) : exec i s = binop op d a b s := by
  cases hi <;> rfl

theorem WordWise.slots_eq : i.slots = [d, a, b] := by
  cases hi <;> rfl

theorem WordWise.sources_eq : i.sources = [a, b] := by
  cases hi <;> rfl

variable {s : State}

theorem WordWise.exec_illegal (hslot : ∃ x ∈ [d, a, b], s.params.nslot ≤ x.toNat) :
    exec i s = .next (s.raise .illegalCommand) := by
  obtain ⟨x, hx, hlt⟩ := hslot
  exact Machine.exec_illegal (wf_eq_false_of_slot (hi.slots_eq ▸ hx) hlt)

variable (hslots : ∀ x ∈ [d, a, b], x.toNat < s.params.nslot)
include hslots

theorem WordWise.wf : i.wf s.params = true := wf_of_slots_lt (hi.slots_eq ▸ hslots)

theorem WordWise.exec_slotUnallocated (hv : (s.slot a).valid = false ∨ (s.slot b).valid = false) :
    exec i s = .next (s.raise .slotUnallocated) := by
  obtain hv | hv := hv <;> exact Machine.exec_slotUnallocated (hi.wf hslots) (by simp [hi.sources_eq]) hv

variable (hva : (s.slot a).valid = true) (hvb : (s.slot b).valid = true)
include hva hvb

theorem WordWise.exec_capacityMismatch (hlen : (s.slot a).len ≠ (s.slot b).len) :
    exec i s = .next (s.raise .capacityMismatch) := by
  have hused : [d, a, b].all s.params.hasSlot = true := hi.slots_eq ▸ hi.wf hslots
  rw [hi.exec_eq, binop, runCommand_of_slots hused, State.allValid_pair.mpr ⟨hva, hvb⟩, decide_eq_false hlen]
  rfl

variable (hlen : (s.slot a).len = (s.slot b).len)
include hlen

theorem WordWise.exec_of_sameLen :
    exec i s = .next (s.putArray d (s.slot a).len fun q => op (s.word a q) (s.word b q)).succeed := by
  have hw := hi.wf hslots
  have hvalid := State.allValid_pair.mpr ⟨hva, hvb⟩
  cases hi <;> exact exec_of_commits hw ⟨hvalid, hlen, rfl⟩

/-- Slot D alone is written, with the operands' words as they were before, D being A or B or neither (R111). -/
theorem WordWise.exec_words :
    ∃ t, exec i s = .next t ∧ s.ChangesOnlySlot d t ∧ (t.slot d).valid = true ∧ (t.slot d).len = (s.slot a).len ∧
      ∀ q, t.word d q = if q < (s.slot a).len / 32 then op (s.word a q) (s.word b q) else s.word d q :=
  ⟨_, hi.exec_of_sameLen hslots hva hvb hlen, s.changesOnlySlot_putSlot d _, by simp, by simp, fun q => by simp⟩

/-- An operation that acts on each bit of a word by itself makes a command act on each array bit by itself (R115). -/
theorem WordWise.exec_bits {f : Bool → Bool → Bool}
    (hop : ∀ x y p, (op x y).getLsbD p = f (x.getLsbD p) (y.getLsbD p)) :
    ∃ t, exec i s = .next t ∧ ∀ j < 32 * ((s.slot a).len / 32), t.bit d j = f (s.bit a j) (s.bit b j) := by
  refine ⟨_, hi.exec_of_sameLen hslots hva hvb hlen, fun j hj => ?_⟩
  rw [State.bit_succeed, State.bit_putArray _ _ _ hj, hop, State.bit, State.bit]

end

/-- Settles O46: the words are those of the rule AND shares with OR and XOR, and so are the errors. -/
theorem andEffect : Obligations.AndEffect :=
  ⟨spells_commandRow 10 (by decide), fun _ _ _ _ =>
    ⟨fun hslots hva hvb => ⟨WordWise.and.exec_words hslots hva hvb, WordWise.and.exec_capacityMismatch hslots hva hvb⟩,
      WordWise.and.exec_slotUnallocated, WordWise.and.exec_illegal⟩⟩

/-- Settles O47: the words are those of the rule OR shares with AND and XOR, and so are the errors. -/
theorem orEffect : Obligations.OrEffect :=
  ⟨spells_commandRow 11 (by decide), fun _ _ _ _ =>
    ⟨fun hslots hva hvb => ⟨WordWise.or.exec_words hslots hva hvb, WordWise.or.exec_capacityMismatch hslots hva hvb⟩,
      WordWise.or.exec_slotUnallocated, WordWise.or.exec_illegal⟩⟩

/-- Settles O48: the words are those of the rule XOR shares with AND and OR, and so are the errors. -/
theorem xorEffect : Obligations.XorEffect :=
  ⟨spells_commandRow 12 (by decide), fun _ _ _ _ =>
    ⟨fun hslots hva hvb => ⟨WordWise.xor.exec_words hslots hva hvb, WordWise.xor.exec_capacityMismatch hslots hva hvb⟩,
      WordWise.xor.exec_slotUnallocated, WordWise.xor.exec_illegal⟩⟩

/-- Settles O49: each operation acts on the bits of a word one by one, and the XOR of a bit with itself is 0. -/
theorem laneSemantics : Obligations.LaneSemantics := by
  intro s d a b hslots hva hvb hlen
  have ha : a.toNat < s.params.nslot := hslots a (by simp)
  refine ⟨WordWise.and.exec_bits hslots hva hvb hlen fun _ _ _ => BitVec.getLsbD_and,
    WordWise.or.exec_bits hslots hva hvb hlen fun _ _ _ => BitVec.getLsbD_or,
    WordWise.xor.exec_bits hslots hva hvb hlen fun _ _ _ => BitVec.getLsbD_xor,
    ⟨_, exec_not_of_valid ha hva, fun j hj => s.bit_putWords_not a hj⟩, ?_⟩
  have hself : ∀ x ∈ [a, a, a], x.toNat < s.params.nslot := by simpa using ha
  obtain ⟨t, ht, hbits⟩ := WordWise.xor.exec_bits hself hva hva rfl fun _ _ _ => BitVec.getLsbD_xor
  exact ⟨t, ht, fun j hj => (hbits j hj).trans (Bool.xor_self _)⟩

end Sys2Proof.Machine
end

section
/-! PROOFS. TOBIN and TOHEX (44_encoders.md): the frame of a command that writes a text, the hex digit as the value of
four array bits, and the seed decoder on the hex text. -/

namespace Sys2Proof.Machine

/-! ### Writing a text -/

/-- A command whose one write is a text changes nothing else but CODE (R120). -/
theorem State.changesOnlyText_putText (s : State) (n : Nat) (f : Nat → Byte) :
    s.ChangesOnlyText (s.putText n f).succeed := rfl

/-- Settles O50: the text goes to SOUT once the two checks have passed, a character for each array bit. -/
theorem tobinEffect : Obligations.TobinEffect := by
  refine ⟨spells_commandRow 13 (by decide), fun s a => ⟨fun ha hv => ?_, fun ha => ?_, fun ha => ?_⟩⟩
  · exact ⟨_, exec_tobin_of_valid ha hv, s.changesOnlyText_putText .., rfl, fun _ => Memory.read?_fill ..⟩
  · exact exec_slotUnallocated (all_hasSlot_singleton ha) List.mem_cons_self
  · exact exec_illegal (wf_eq_false_of_slot List.mem_cons_self ha)

/-! ### Hex digits as array bits -/

/-- The value of array bits 4k .. 4k+3 of slot `a`, bit 4k the most significant (R122). -/
def State.nibble (s : State) (a : SlotNo) (k : Nat) : Nat :=
  8 * (s.bit a (4 * k)).toNat + 4 * (s.bit a (4 * k + 1)).toNat + 2 * (s.bit a (4 * k + 2)).toNat +
    (s.bit a (4 * k + 3)).toNat

/-- Four bits by their weights: the sum is a value of four bits, and its bits are these. -/
theorem weightedSum_bits : ∀ x y z w : Bool, 8 * x.toNat + 4 * y.toNat + 2 * z.toNat + w.toNat < 16 ∧
    ∀ b : Fin 4, (8 * x.toNat + 4 * y.toNat + 2 * z.toNat + w.toNat).testBit (3 - b) = ![x, y, z, w] b := by
  decide

section
variable (s : State) (a : SlotNo) (k : Nat)

theorem State.nibble_lt : s.nibble a k < 16 := (weightedSum_bits ..).1

theorem State.nibble_testBit {b : Nat} (hb : b < 4) : (s.nibble a k).testBit (3 - b) = s.bit a (4 * k + b) := by
  refine ((weightedSum_bits ..).2 ⟨b, hb⟩).trans ?_
  interval_cases b <;> rfl

/-- Character `k` of the hex text is the digit of its four array bits (R122). -/
theorem State.hexChar_eq_hexchar_nibble : s.hexChar a k = hexchar (s.nibble a k) :=
  State.hexChar_of_bits (s.nibble_lt a k) fun _ hb => (s.nibble_testBit a k hb).symm

/-- The decoder reads a digit of the hex text as the value of its four array bits (R123). -/
theorem State.hexval_hexChar : hexval (s.hexChar a k) = s.nibble a k := by
  rw [State.hexChar_eq_hexchar_nibble, hexval_hexchar (s.nibble_lt a k)]

end

/-- Settles O51: the text goes to SOUT once the two checks have passed, a digit for each four array bits. -/
theorem tohexEffect : Obligations.TohexEffect := by
  refine ⟨spells_commandRow 14 (by decide), fun s a => ⟨fun ha hv => ?_, fun ha => ?_, fun ha => ?_⟩⟩
  · refine ⟨_, exec_tohex_of_valid ha hv, s.changesOnlyText_putText .., rfl, fun k => ?_⟩
    rw [← State.nibble, ← State.hexChar_eq_hexchar_nibble]
    exact Memory.read?_fill ..
  · exact exec_slotUnallocated (all_hasSlot_singleton ha) List.mem_cons_self
  · exact exec_illegal (wf_eq_false_of_slot List.mem_cons_self ha)

/-! ### The seed decoder on the hex text -/

/-- Settles O53: bit `p` of a decoded word is a bit of one digit, which is the array bit of that place. -/
theorem codecAgrees : Obligations.CodecAgrees := by
  intro s a q
  have hdigit (k : Nat) : hexval (paddedChar 0 (s.hexChar a) k) = s.nibble a k := s.hexval_hexChar a k
  refine BitVec.eq_of_getLsbD_eq fun p hp => ?_
  calc (decodeWord 0 (s.hexChar a) q).getLsbD p
      = (s.nibble a (8 * q + (7 - p / 4))).testBit (p % 4) := by
        rw [decodeWord_getLsbD _ _ _ _ hp fun k _ _ => hdigit k ▸ s.nibble_lt a k, hdigit]
    _ = (s.nibble a (8 * q + (7 - p / 4))).testBit (3 - (3 - p % 4)) := by
        congr 1; omega
    _ = s.bit a (4 * (8 * q + (7 - p / 4)) + (3 - p % 4)) := s.nibble_testBit a _ (by omega)
    _ = (s.word a q).getLsbD p := by
        rw [State.bit]
        congr 2 <;> omega

end Sys2Proof.Machine
end

section
/-! PROOFS. The errors of a command (60_exceptions.md): an error writes STATUS alone (R133), and of several that apply the
first in the command's list is reported (R131, R132). -/

namespace Sys2Proof.Machine

/-! ### What an error leaves as it was -/

/-- A CMD write that ends with CODE not 0 has raised an error, from the state in which CC has advanced. -/
theorem performCommand_of_code_ne_zero {c : Word} {s t : State} (h : performCommand c s = .next t) (hcode : t.code ≠ 0) :
    ∃ e, t = s.tick.raise e := by
  obtain ⟨i, -, he⟩ | ⟨-, -, he⟩ := performCommand_cases c s <;> rw [he] at h
  · obtain ⟨-, u, -, rfl⟩ | herr := exec_next h
    · exact absurd rfl hcode
    · exact herr
  · cases h; exact ⟨_, rfl⟩

/-- Settles O21: STATUS is all that raising an error writes, and CC all that the CMD write advances. -/
theorem errorsArePrecise : Obligations.ErrorsArePrecise := by
  intro c s t h hcode
  obtain ⟨e, rfl⟩ := performCommand_of_code_ne_zero h hcode
  exact ⟨e.code_range.2, rfl⟩

/-! ### The order of the checks -/

/-- Command `i` judges the errors `codes` in this order: the first whose condition holds is reported and nothing else
changes; past the last of them the command succeeds (R132). -/
def ReportsInOrder (i : Instr) (s : State) : List Nat → Prop
  | [] => ∃ u, exec i s = .next (State.succeed u)
  | c :: codes =>
    (i.Raises s c → exec i s = .next { s with code := BitVec.ofNat 4 c, sticky := true }) ∧
    (¬ i.Raises s c → ReportsInOrder i s codes)

section
variable {i : Instr} {s : State}

/-- An error that applies is reported when none before it does. -/
theorem ReportsInOrder.first {before after : List Nat} {c : Nat} (h : ReportsInOrder i s (before ++ c :: after))
    (hbefore : ∀ c' ∈ before, ¬ i.Raises s c') (hc : i.Raises s c) :
    exec i s = .next { s with code := BitVec.ofNat 4 c, sticky := true } := by
  induction before with
  | nil => exact h.1 hc
  | cons b before ih =>
    obtain ⟨hb, hrest⟩ := List.forall_mem_cons.mp hbefore
    exact ih (h.2 hb) hrest

/-- When no error applies the command succeeds. -/
theorem ReportsInOrder.succeeds {codes : List Nat} (h : ReportsInOrder i s codes) (hnone : ∀ c ∈ codes, ¬ i.Raises s c) :
    ∃ u, exec i s = .next (State.succeed u) := by
  induction codes with
  | nil => exact h
  | cons c codes ih =>
    obtain ⟨hc, hrest⟩ := List.forall_mem_cons.mp hnone
    exact ih (h.2 hc) hrest

/-- ILLEGAL_COMMAND comes before every other check. -/
theorem reportsInOrder_illegal {codes : List Nat} (h : i.wf s.params = true → ReportsInOrder i s codes) :
    ReportsInOrder i s (6 :: codes) := by
  refine ⟨fun ⟨a, ha, hslot⟩ => exec_illegal (wf_eq_false_of_slot ha hslot), fun hslots => h ?_⟩
  exact wf_of_slots_lt fun a ha => Nat.not_le.mp fun hslot => hslots ⟨a, ha, hslot⟩

/-- SLOT_UNALLOCATED is the first check after it. -/
theorem reportsInOrder_unallocated {codes : List Nat} (hw : i.wf s.params = true)
    (h : s.allValid i.sources = true → ReportsInOrder i s codes) : ReportsInOrder i s (7 :: codes) := by
  refine ⟨fun ⟨a, ha, hv⟩ => exec_slotUnallocated hw ha hv, fun hvalid => h (List.all_eq_true.mpr fun a ha => ?_)⟩
  exact Bool.eq_true_of_not_eq_false fun hv => hvalid ⟨a, ha, hv⟩

/-- A command whose only checks are those of its slots succeeds on valid ones. -/
theorem reportsInOrder_of_slotChecks (h : s.allValid i.sources = true → ∃ u, Commits s u i) :
    ReportsInOrder i s [6, 7] := by
  refine reportsInOrder_illegal fun hw => reportsInOrder_unallocated hw fun hv => ?_
  obtain ⟨u, hu⟩ := h hv
  exact ⟨u, exec_of_commits hw hu⟩

/-- GET, SET and TOGGLE judge the index after the slot (R91). -/
theorem BitAccess.reportsInOrder {a : SlotNo} (hi : BitAccess a i) : ReportsInOrder i s [6, 7, 1] := by
  have hslots : i.slots = [a] := by cases hi <;> rfl
  have hsources : i.sources = [a] := by cases hi <;> rfl
  have hindex : i.Raises s 1 ↔ (s.slot a).len ≤ s.arg.toNat := by simp [Instr.Raises, hsources]
  refine reportsInOrder_illegal fun hw => reportsInOrder_unallocated hw fun hvalid => ?_
  have ha : a.toNat < s.params.nslot := by simpa [Instr.wf, Params.hasSlot, hslots] using hw
  have hv : (s.slot a).valid = true := by simpa [hsources] using hvalid
  exact ⟨fun hout => hi.exec_indexOutOfRange ha hv (hindex.mp hout),
    fun hin => hi.exec_succeeds ha hv (Nat.not_le.mp (hindex.not.mp hin))⟩

/-- AND, OR and XOR judge the capacities after the slots (R111). -/
theorem WordWise.reportsInOrder {d a b : SlotNo} {op : Word → Word → Word} (hi : WordWise d a b op i) :
    ReportsInOrder i s [6, 7, 3] := by
  have hcapacity : i.Raises s 3 ↔ (s.slot a).len ≠ (s.slot b).len := by
    simp [Instr.Raises, hi.sources_eq, eq_comm]
  refine reportsInOrder_illegal fun hw => reportsInOrder_unallocated hw fun hvalid => ?_
  have hslots : ∀ x ∈ [d, a, b], x.toNat < s.params.nslot := by
    simpa [Instr.wf, Params.hasSlot, hi.slots_eq] using hw
  obtain ⟨hva, hvb⟩ := State.allValid_pair.mp (hi.sources_eq ▸ hvalid)
  exact ⟨fun hne => hi.exec_capacityMismatch hslots hva hvb (hcapacity.mp hne),
    fun heq => ⟨_, hi.exec_of_sameLen hslots hva hvb (not_not.mp (hcapacity.not.mp heq))⟩⟩

end

section
variable (s : State) (d : SlotNo)

/-- CREATE judges the rounded capacity (R81). -/
theorem create_reportsInOrder : ReportsInOrder (.create d) s [6, 5] := by
  refine reportsInOrder_illegal fun hw => ?_
  have hd : d.toNat < s.params.nslot := by simpa [Instr.wf, Instr.slots, Params.hasSlot] using hw
  exact ⟨exec_create_capacityLimit hd, fun hcap => ⟨_, exec_create_of_fits hd (Nat.not_lt.mp hcap)⟩⟩

/-- A written seed has a character that is no hex digit where the host has written one. -/
theorem createh_raises_malformedHexInput_iff (hwritten : ∀ j < s.sinlen.toNat, (s.sin.read? j).isSome = true) :
    (Instr.createh d).Raises s 4 ↔ s.seedIsHex s.sinlen.toNat = false := by
  rw [← Bool.not_eq_true, State.seedIsHex_iff]
  constructor
  · rintro ⟨j, hj, c, hc, hbad⟩ hhex
    simpa [State.sinChar_of_written hc, hbad] using hhex j hj
  · intro h
    push Not at h
    obtain ⟨j, hj, hbad⟩ := h
    obtain ⟨c, hc⟩ := Option.isSome_iff_exists.mp (hwritten j hj)
    exact ⟨j, hj, c, hc, by simpa [State.sinChar_of_written hc] using hbad⟩

/-- CREATEH judges the rounded capacity, then the length of the seed, then its characters (R84, R85). -/
theorem createh_reportsInOrder (hwritten : ∀ j < s.sinlen.toNat, (s.sin.read? j).isSome = true) :
    ReportsInOrder (.createh d) s [6, 5, 2, 4] := by
  have hnone : s.firstUnwritten s.sinlen.toNat = none := State.firstUnwritten_eq_none.mpr hwritten
  have hchars := createh_raises_malformedHexInput_iff s d hwritten
  refine reportsInOrder_illegal fun hw => ?_
  have hd : d.toNat < s.params.nslot := by simpa [Instr.wf, Instr.slots, Params.hasSlot] using hw
  refine ⟨exec_createh_capacityLimit hd, fun hcap => ?_⟩
  replace hcap := Nat.not_lt.mp hcap
  refine ⟨exec_createh_seedOverflow hd hcap, fun hfit => ?_⟩
  replace hfit := Nat.not_lt.mp hfit
  exact ⟨fun hbad => exec_createh_malformedHexInput hd hcap hfit hnone (hchars.mp hbad),
    fun hhex => ⟨_, exec_createh_of_fits hd hcap hfit hnone (Bool.eq_true_of_not_eq_false (hchars.not.mp hhex))⟩⟩

end

/-- Every command judges the errors of its list in their order (R131). -/
theorem exec_reportsInOrder {i : Instr} {s : State}
    (hseed : ∀ d, i = .createh d → ∀ j < s.sinlen.toNat, (s.sin.read? j).isSome = true) :
    ReportsInOrder i s i.errors := by
  cases i with
  | create d => exact create_reportsInOrder s d
  | createh d => exact createh_reportsInOrder s d (hseed d rfl)
  | get a => exact BitAccess.get.reportsInOrder
  | set d v => exact (BitAccess.set v).reportsInOrder
  | toggle d => exact BitAccess.toggle.reportsInOrder
  | and d a b => exact WordWise.and.reportsInOrder
  | or d a b => exact WordWise.or.reportsInOrder
  | xor d a b => exact WordWise.xor.reportsInOrder
  | size | count | equals | copy | not | tobin | tohex => exact reportsInOrder_of_slotChecks fun hv => ⟨_, hv, rfl⟩

/-- Settles O23: the checks of each command come in the order of its list, and success after the last. -/
theorem firstError : Obligations.FirstError := by
  intro i s hseed
  have horder : ReportsInOrder i s i.errors := exec_reportsInOrder hseed
  refine ⟨fun before after c hlist hbefore hc => (hlist ▸ horder).first hbefore hc, fun hnone => ?_⟩
  obtain ⟨u, hu⟩ := horder.succeeds hnone
  exact ⟨_, hu, rfl, (exec_statusReported hu).success rfl⟩

end Sys2Proof.Machine
end

section
/-! PROOFS. Reset, applied and released (70_reset_and_hazards.md R150). -/

namespace Sys2Proof.Machine

/-! ### The step, by what the platform does with reset -/

section
variable {s : State} {rest : List Input}

theorem step_of_applyReset (hp : s.pending = .applyReset :: rest) :
    step s = .next (State.applyReset { s with pending := rest }) :=
  step_of_pending hp

theorem step_of_releaseReset (hp : s.pending = .releaseReset :: rest) :
    step s = .next { s with pending := rest, inReset := false } :=
  step_of_pending hp

end

section
variable {x : Input} {s : State} (happly : x ≠ .applyReset) (hrelease : x ≠ .releaseReset)
include happly hrelease

/-- An access that finds reset applied has no effect. -/
theorem performInput_access_of_inReset (hreset : s.inReset = true) : performInput x s = .next s := by
  obtain ⟨rfl, -⟩ | ⟨rfl, -⟩ | ⟨-, he⟩ | ⟨released, -⟩ := performInput_cases x s
  · exact absurd rfl happly
  · exact absurd rfl hrelease
  · exact he
  · simp [hreset] at released

/-- Whether or not reset is applied, an access keeps what accesses keep, the reset line among it. -/
theorem performInput_access_keeps {t : State} (ht : performInput x s = .next t) : AccessKeeps s t := by
  obtain ⟨rfl, -⟩ | ⟨rfl, -⟩ | hk := performInput_next ht
  · exact absurd rfl happly
  · exact absurd rfl hrelease
  · exact hk

end

/-- Settles O13: the step performs the first input, which applies reset, releases it, or is an access and leaves it. -/
theorem resetInput : Obligations.ResetInput := by
  refine fun s rest => ⟨fun hp => ⟨_, step_of_applyReset hp, rfl, rfl⟩, fun x hreset hp happly hrelease => ?_,
    step_of_releaseReset, fun x t hp happly hrelease ht => ?_⟩
  · rw [step_of_pending hp]
    exact performInput_access_of_inReset happly hrelease hreset
  · rw [step_of_pending hp] at ht
    have hk := performInput_access_keeps happly hrelease ht
    exact ⟨hk.inReset, hk.resets⟩

end Sys2Proof.Machine
end
